-- ==== Sys2Proof/Word.lean ====
section
/-! DEFINITION. The word types of the engine (00_scope.md R6) and the slice and bit primitives of its notation (R9). -/

namespace Sys2Proof

/-- One bus word, a register of the window or a command word (R6, R20, R70). -/
abbrev Word := BitVec 32

/-- A 64-bit operand: master key, input block, output block (R6). -/
abbrev Block := BitVec 64

/-- A 48-bit round key, DES bit 1 in bit 47 (R6, R51). -/
abbrev RoundKey := BitVec 48

end Sys2Proof
end

