-- ==== Sys2Proof/Syntax.lean ====
section
/-! DEFINITION. The six commands (30_encoding.md R77, R78), one constructor per row of spec/opcode_table.json. -/

namespace Sys2Proof

/-- A decoded command with the fields its opcode uses (R77). The fields are the unsigned numbers of R73 (`len`), R74 (`rnd`,
before the mapping to a round count) and R75 (`idx`). -/
inductive Instr where
  /-- OPC 0x0, 42_control.md R170. -/
  | nop
  /-- OPC 0x1, 40_keyschedule.md R120. -/
  | keysched (len rnd : Nat)
  /-- OPC 0x2, 41_cipher.md R150. -/
  | encrypt (len : Nat)
  /-- OPC 0x3, 41_cipher.md R151. -/
  | decrypt (len : Nat)
  /-- OPC 0x4, 40_keyschedule.md R121. -/
  | forcekey (rnd : Nat)
  /-- OPC 0x5, 40_keyschedule.md R122. -/
  | rkread (idx : Nat)
  deriving DecidableEq, Repr

end Sys2Proof
end

