-- ==== Sys2Proof/WellFormed.lean ====
section
/-! DEFINITION. Which terms of `Instr` a command word can carry: each field within its width (30_encoding.md R71 to R75). -/

namespace Sys2Proof.Instr

/-- LEN is 4 bits, RND 5 bits, IDX 4 bits (R71). Values a command then refuses (LEN other than 8, RND 17 to 31) are still
well formed: they decode, and the command completes with an error code. -/
def wellFormed : Instr → Bool
  | .nop => true
  | .keysched len rnd => decide (len < 16) && decide (rnd < 32)
  | .encrypt len => decide (len < 16)
  | .decrypt len => decide (len < 16)
  | .forcekey rnd => decide (rnd < 32)
  | .rkread idx => decide (idx < 16)

end Sys2Proof.Instr
end

