-- ==== Sys2Proof/Decode.lean ====
section
/-! DEFINITION. Command words to commands and back (30_encoding.md R70 to R81): the opcode map, the fields, the total
decoder, the encoder. -/

namespace Sys2Proof

/-- `w[3:0]` (R72). -/
def fieldOpc (w : Word) : Nat := (w.extractLsb' 0 4).toNat

/-- `w[7:4]` (R73). -/
def fieldLen (w : Word) : Nat := (w.extractLsb' 4 4).toNat

/-- `w[12:8]` (R74). -/
def fieldRnd (w : Word) : Nat := (w.extractLsb' 8 5).toNat

/-- `w[19:16]` (R75). -/
def fieldIdx (w : Word) : Nat := (w.extractLsb' 16 4).toNat

/-- One row of the opcode map (R78): a word selects it when `(w & mask) = matchBits`. -/
structure OpcodeRow where
  opc : Nat
  mnemonic : String
  matchBits : Word
  mask : Word
  deriving DecidableEq, Repr

/-- A word selects a row (R78). -/
def OpcodeRow.selects (r : OpcodeRow) (w : Word) : Bool := (w &&& r.mask) == r.matchBits

/-- R78: NOP. -/
def rowNop : OpcodeRow := ⟨0x0, "NOP", 0x00000000#32, 0xFFFFFFFF#32⟩
/-- R78: KEYSCHED. -/
def rowKeysched : OpcodeRow := ⟨0x1, "KEYSCHED", 0x00000001#32, 0xFFFFE00F#32⟩
/-- R78: ENCRYPT. -/
def rowEncrypt : OpcodeRow := ⟨0x2, "ENCRYPT", 0x00000002#32, 0xFFFFFF0F#32⟩
/-- R78: DECRYPT. -/
def rowDecrypt : OpcodeRow := ⟨0x3, "DECRYPT", 0x00000003#32, 0xFFFFFF0F#32⟩
/-- R78: FORCEKEY. -/
def rowForcekey : OpcodeRow := ⟨0x4, "FORCEKEY", 0x00000004#32, 0xFFFFE0FF#32⟩
/-- R78: RKREAD. -/
def rowRkread : OpcodeRow := ⟨0x5, "RKREAD", 0x00000005#32, 0xFFF0FFFF#32⟩

/-- The opcode map (R78). -/
def opcodeTable : List OpcodeRow := [rowNop, rowKeysched, rowEncrypt, rowDecrypt, rowForcekey, rowRkread]

/-- The row of a command (R78). -/
def Instr.row : Instr → OpcodeRow
  | .nop => rowNop
  | .keysched _ _ => rowKeysched
  | .encrypt _ => rowEncrypt
  | .decrypt _ => rowDecrypt
  | .forcekey _ => rowForcekey
  | .rkread _ => rowRkread

/-- Why a word is ILLEGAL (R80, R181). The engine reports all of them by the one code ILLEGAL_CMD; the names tell them apart
for a reader only (log 11). -/
inductive Illegal where
  /-- OPC is 0x6 to 0xF (R80). -/
  | reservedOpcode (opc : Nat)
  /-- The opcode is a command's, and a reserved bit (15:13, 31:20) is set or a field the opcode does not use is not zero (R76,
  R77, R80). -/
  | nonzeroUnusedBits (opc : Nat)
  deriving DecidableEq, Repr

/-- Decoding, total on the 2^32 words (R79), in the order of the spec's lines. -/
def decode (w : Word) : Except Illegal Instr :=
  if fieldOpc w = 0x0 ∧ rowNop.selects w then .ok .nop
  else if fieldOpc w = 0x1 ∧ rowKeysched.selects w then .ok (.keysched (fieldLen w) (fieldRnd w))
  else if fieldOpc w = 0x2 ∧ rowEncrypt.selects w then .ok (.encrypt (fieldLen w))
  else if fieldOpc w = 0x3 ∧ rowDecrypt.selects w then .ok (.decrypt (fieldLen w))
  else if fieldOpc w = 0x4 ∧ rowForcekey.selects w then .ok (.forcekey (fieldRnd w))
  else if fieldOpc w = 0x5 ∧ rowRkread.selects w then .ok (.rkread (fieldIdx w))
  else if 0x6 ≤ fieldOpc w then .error (.reservedOpcode (fieldOpc w))
  else .error (.nonzeroUnusedBits (fieldOpc w))

/-- The format CMD with its reserved bits zero (R71): 31:20 zero, IDX, 15:13 zero, RND, LEN, OPC. -/
def packCommand (opc len rnd idx : Nat) : Word :=
  0#12 ++ BitVec.ofNat 4 idx ++ 0#3 ++ BitVec.ofNat 5 rnd ++ BitVec.ofNat 4 len ++ BitVec.ofNat 4 opc

/-- The word of a well-formed command (R71, R77): its OPC, its fields, zero in every field it does not use. -/
def encode : Instr → Word
  | .nop => packCommand 0x0 0 0 0
  | .keysched len rnd => packCommand 0x1 len rnd 0
  | .encrypt len => packCommand 0x2 len 0 0
  | .decrypt len => packCommand 0x3 len 0 0
  | .forcekey rnd => packCommand 0x4 0 rnd 0
  | .rkread idx => packCommand 0x5 0 0 idx

/-- The instruction the decoder reads from an opcode-table word: every command is one 32-bit word (R70), whose value, not its
byte lanes, is what counts (R52); bits of `w` at and above `nbits` are taken as zero. -/
def decodeTableWord (nbits w : Nat) : Option Instr := (decode (BitVec.ofNat 32 (w % 2 ^ nbits))).toOption

end Sys2Proof
end

