-- ==== Sys2Proof/Machine/Bits.lean ====
section
/-! DEFINITION. The bit primitives of the cipher: DES bit positions (00_scope.md R10), permutation by a table (R11), 28-bit
rotation (R12). -/

namespace Sys2Proof.Machine

/-- DES bit position `i` (1-based) of an n-bit value: `d_n(v, i) = v[n - i]`, so DES bit 1 is the most significant (R10). -/
def desBit {n : Nat} (v : BitVec n) (i : Nat) : Bool := v.getLsbD (n - i)

/-- `Perm(T, n, v)` as an m-bit value, m the length of T (R11): output DES bit j is input DES bit `T[j]`. -/
def perm (m : Nat) (table : List Nat) {n : Nat} (v : BitVec n) : BitVec m :=
  (BitVec.ofBoolListBE (table.map (desBit v))).setWidth m

/-- `Rotl28(x, s)` (R12). -/
def rotl28 (x : BitVec 28) (s : Nat) : BitVec 28 := (x <<< s) ||| (x >>> (28 - s))

end Sys2Proof.Machine
end

