-- ==== Sys2Proof/Config.lean ====
section
/-! DEFINITION. What one engine fixes and the spec leaves open: the bus address BASE of the register window
(00_scope.md R8, 20_memory.md R53) and the free values. The other open parameter, LAT, is no constant: it may differ for
each command (70_reset_and_hazards.md R216), and the schedule in State decides it (log 2). -/

namespace Sys2Proof.Config

/-- Which 0x40-byte slot of the bus the window occupies. No value is known of it: every claim holds for each (log 4). -/
opaque windowIndex : Nat

/-- Length of the register window in bytes (R53). -/
def windowBytes : Nat := 0x40

/-- BASE, the bus address of the register window: any multiple of 0x40 (R53). -/
def base : Nat := windowBytes * windowIndex

/-- Free value number `k` of width `w`: what the spec calls unspecified (PEND after a reset, R31, R172, R200; log 3).
It has no body, so nothing can be proved of its value. -/
opaque freeValue (w k : Nat) : BitVec w

end Sys2Proof.Config
end

