-- ==== Sys2Proof/Machine/State.lean ====
section
/-! DEFINITION. The state of the engine, of the host that drives it and of the interleaving of the two, as plain data; the
reasons a step can stop; the state after reset. -/

namespace Sys2Proof.Machine

/-- The result codes a completion can report (60_exceptions.md R180). Codes 7 to 15 are "never reported". -/
inductive ResultCode where
  /-- 0: the command succeeded. -/
  | ok
  /-- 1: reserved OPC, or a non-zero reserved bit or unused field (R181). -/
  | illegalCmd
  /-- 2: KEYSCHED with LEN other than 8 (R182). -/
  | invalidKey
  /-- 3: ENCRYPT or DECRYPT with LEN other than 8 (R183). -/
  | invalidBlock
  /-- 4: RND in 17..31 (R185). -/
  | invalidRounds
  /-- 5: no schedule is loaded (R186). -/
  | noKey
  /-- 6: RKREAD of a slot at or beyond NR (R187). -/
  | rkRange
  deriving DecidableEq, Repr

/-- The pending-command latch PEND (10_state.md R31): the command word and the operands as they were at acceptance. -/
structure Pend where
  cmd : Word
  key : Block
  din : Block
  fkey : RoundKey
  deriving DecidableEq, Repr

/-- One operation of the host's program (30_encoding.md R82, 42_control.md R171, R173): a bus write or read of `width` bits at a
bus address, or the polling loop WAIT. -/
inductive HostOp where
  | write (addr width : Nat) (v : Word)
  | read (addr width : Nat)
  | wait
  deriving DecidableEq, Repr

/-- What the bus answers to the host: the data of a read, or the error response with the offset (20_memory.md R55). A write that
is not refused has no answer to record. -/
inductive BusResponse where
  | data (v : Word)
  | busError (off : Nat)
  deriving DecidableEq, Repr

/-- Who moves next: the host, the engine (R17), or the platform's reset input (70_reset_and_hazards.md R201). -/
inductive Turn where
  | host
  | engine
  | assertReset
  | releaseReset
  deriving DecidableEq, Repr

/-- The whole state. Register and field names are the spec's (10_state.md R20 to R31). STATUS, ID, CMD and CTRL hold no state of
their own (R21, R22, R24, R25); the datapath lives inside one completion only (R33, log 8). The last four fields are the model's
(log 13). -/
structure State where
  /-- KEY (R23). -/
  key : Block
  /-- DIN (R26). -/
  din : Block
  /-- DOUT (R27). -/
  dout : Block
  /-- FKEY (R28). -/
  fkey : RoundKey
  /-- RK[0..15] (R29). -/
  rk : Vector RoundKey 16
  /-- NR, the number of valid slots (R29). -/
  nr : BitVec 5
  /-- KV, a schedule is loaded (R29). -/
  kv : Bool
  /-- DEGEN, the schedule came from FORCEKEY (R29). -/
  degen : Bool
  /-- STATUS.BUSY (R24). -/
  busy : Bool
  /-- STATUS.DONE (R24). -/
  done : Bool
  /-- STATUS.OVR (R24). -/
  ovr : Bool
  /-- STATUS.ERRCODE (R24, R180). -/
  errcode : ResultCode
  /-- PEND (R31). -/
  pend : Pend
  /-- The reset input is asserted (R201). -/
  resetAsserted : Bool
  /-- The rest of the host's program, next operation first (R32, R60). -/
  host : List HostOp
  /-- Who moves at the next steps, next first; when it is used up a pending completion moves, else the host (log 2). -/
  schedule : List Turn
  /-- What the bus has answered to the host, oldest first (R19, R55). -/
  observed : List BusResponse
  /-- How many free values have been drawn (log 3). -/
  freeIndex : Nat
  deriving DecidableEq, Repr

/-- Why a step stops with a fault. -/
inductive Fault where
  /-- Raised by a host access whose bus address is outside `[BASE, BASE + 0x40)`: what the platform decodes there "is not the
  engine's and is not specified here" (20_memory.md R53). Safe: the model stops where the platform goes on (log 5). -/
  | outsideWindow (addr : Nat)
  deriving DecidableEq, Repr

/-- Why a step refuses an instruction. -/
inductive Refusal where
  /-- Raised by an arm of `exec` for an instruction without a meaning. No arm is such an arm. Safe. -/
  | notModelled (mnemonic : String)
  deriving DecidableEq, Repr

/-- The state right after reset (70_reset_and_hazards.md R200), the reset input released. PEND is unspecified there: zero is
this model's choice (log 3). The host's program, the schedule and the observation are empty (log 13). -/
def State.reset : State where
  key := 0
  din := 0
  dout := 0
  fkey := 0
  rk := Vector.replicate 16 0
  nr := 0
  kv := false
  degen := false
  busy := false
  done := false
  ovr := false
  errcode := .ok
  pend := ⟨0, 0, 0, 0⟩
  resetAsserted := false
  host := []
  schedule := []
  observed := []
  freeIndex := 0

end Sys2Proof.Machine
end

