-- ==== Sys2Proof/Machine/Flags.lean ====
section
/-! DEFINITION. STATUS, the engine's only flags (10_state.md R24, R35): the encoding of the result codes and the status word as
the host reads it. -/

namespace Sys2Proof.Machine

/-- The number of a result code in STATUS.ERRCODE (60_exceptions.md R180). -/
def ResultCode.bits : ResultCode → BitVec 4
  | .ok => 0
  | .illegalCmd => 1
  | .invalidKey => 2
  | .invalidBlock => 3
  | .invalidRounds => 4
  | .noKey => 5
  | .rkRange => 6

/-- STATUS.ERR "equals `(ERRCODE != 0)`" (R24). -/
def errFlag (s : State) : Bool := s.errcode != .ok

/-- STATUS as read (R24, 42_control.md R173): 31:20 zero, ERRCODE, 15:13 zero, NR, 7:6 zero, DEGEN, KV, OVR, ERR, DONE, BUSY. -/
def statusWord (s : State) : Word :=
  0#12 ++ s.errcode.bits ++ 0#3 ++ s.nr ++ 0#2 ++ BitVec.ofBool s.degen ++ BitVec.ofBool s.kv ++ BitVec.ofBool s.ovr ++
    BitVec.ofBool (errFlag s) ++ BitVec.ofBool s.done ++ BitVec.ofBool s.busy

end Sys2Proof.Machine
end

