-- ==== Sys2Proof/Machine/Operands.lean ====
section
/-! DEFINITION. The operands of a command: the round count RND stands for (30_encoding.md R74), the two words of a wide register
(20_memory.md R50, R51), the snapshot acceptance takes (10_state.md R31), the keys of the loaded schedule (R29). -/

namespace Sys2Proof.Machine

/-- `rounds(RND)` (R74): 0 means 16, 1 to 16 themselves, anything above is invalid. -/
def rounds (rnd : Nat) : Option Nat := if rnd = 0 then some 16 else if rnd ≤ 16 then some rnd else none

/-- The `_HI` word of a 64-bit register, bytes 0 to 3 (R50). -/
def hiWord (v : Block) : Word := v.extractLsb' 32 32

/-- The `_LO` word of a 64-bit register, bytes 4 to 7 (R50). -/
def loWord (v : Block) : Word := v.extractLsb' 0 32

/-- Writing the `_HI` word leaves the other half (R213, 42_control.md R171). -/
def setHiWord (v : Block) (w : Word) : Block := w ++ loWord v

/-- Writing the `_LO` word leaves the other half (R213, 42_control.md R171). -/
def setLoWord (v : Block) (w : Word) : Block := hiWord v ++ w

/-- FKEY_HI as read: FKEY[47:32] in bits 15:0, bits 31:16 zero (R28). -/
def fkeyHiWord (k : RoundKey) : Word := (k.extractLsb' 32 16).setWidth 32

/-- FKEY_LO: FKEY[31:0] (R28). -/
def fkeyLoWord (k : RoundKey) : Word := k.extractLsb' 0 32

/-- A write of FKEY_HI keeps bits 15:0 only (R28, R56). -/
def setFkeyHi (k : RoundKey) (w : Word) : RoundKey := w.extractLsb' 0 16 ++ k.extractLsb' 0 32

/-- A write of FKEY_LO (R28). -/
def setFkeyLo (k : RoundKey) (w : Word) : RoundKey := k.extractLsb' 32 16 ++ w

/-- What acceptance of the word `w` writes into PEND (R31, 30_encoding.md R83). -/
def snapshot (w : Word) (s : State) : Pend := ⟨w, s.key, s.din, s.fkey⟩

/-- The loaded round keys in round order, `RK[0], ..., RK[NR-1]` (R29, 41_cipher.md R150). -/
def scheduleKeys (s : State) : List RoundKey := s.rk.toList.take s.nr.toNat

/-- `RK[i]`; there is no slot beyond 15, and the model reads 0 there (log 15). -/
def rkSlot (s : State) (i : Nat) : RoundKey := s.rk.toList.getD i 0

end Sys2Proof.Machine
end

