-- ==== Sys2Proof/Machine/Ops.lean ====
section
/-! DEFINITION. The named operations every meaning is built from: ending a command (30_encoding.md R84, 60_exceptions.md R184),
loading a schedule (10_state.md R29), reset (42_control.md R172), acceptance (30_encoding.md R83), reading and writing a register
of the window (42_control.md R171, R173). The engine has no memory (R35) and no trap entry (R192). -/

namespace Sys2Proof.Machine

/-- The status of every completion: `BUSY <- 0; DONE <- 1; ERRCODE <- code` (R84). -/
def complete (code : ResultCode) (s : State) : State :=
  { s with busy := false, done := true, errcode := code }

/-- A command that has made its writes ends with OK (R85). -/
def succeed (s : State) : Host.Outcome State Fault Refusal := .next (complete .ok s)

/-- `raise CmdError(code)` (00_scope.md R13): the one way an error is taken. It makes no write but STATUS, saves nothing,
transfers no control, and the machine goes on (R184, R192); nothing is returned from (R193). -/
def fail (code : ResultCode) (s : State) : Host.Outcome State Fault Refusal := .next (complete code s)

/-- The sixteen slots with `keys` in the first and 0 in the rest (R29, 40_keyschedule.md R120, R121). -/
def slotsOf (keys : List RoundKey) : Vector RoundKey 16 := Vector.ofFn fun i => keys.getD i 0

/-- Loading a schedule: `RK`, `NR <- n`, `KV <- 1`, DEGEN as given (R120, R121). -/
def loadSchedule (keys : List RoundKey) (forced : Bool) (s : State) : State :=
  { s with rk := slotsOf keys, nr := BitVec.ofNat 5 keys.length, kv := true, degen := forced }

/-- The one write of DOUT, all 64 bits at once (R27). -/
def setDout (v : Block) (s : State) : State := { s with dout := v }

/-- PEND after a reset: unspecified (R172, R200), so free (log 3). -/
def freePend (k : Nat) : Pend :=
  ⟨Config.freeValue 32 k, Config.freeValue 64 (k + 1), Config.freeValue 64 (k + 2), Config.freeValue 48 (k + 3)⟩

/-- The reset state of every register and internal field (R172, R200); a command in flight is aborted with it. -/
def resetEngine (s : State) : State :=
  { s with
    key := 0, din := 0, dout := 0, fkey := 0
    rk := Vector.replicate 16 0, nr := 0, kv := false, degen := false
    busy := false, done := false, ovr := false, errcode := .ok
    pend := freePend s.freeIndex, freeIndex := s.freeIndex + 4 }

/-- The reset input is asserted (R201): a command in flight is aborted; the registers are in their reset state from here on,
and nothing can change them before the release (log 7). -/
def assertReset (s : State) : State := { resetEngine s with resetAsserted := true }

/-- The reset input is released: "the state is that of rule R200" (R201). -/
def releaseReset (s : State) : State := { resetEngine s with resetAsserted := false }

/-- Taking a command word into PEND (R83, the branch BUSY = 0): operands snapshotted, `BUSY <- 1; DONE <- 0; ERRCODE <- 0`.
Every word is accepted; decoding happens at completion. -/
def acceptCommand (w : Word) (s : State) : State :=
  { s with pend := snapshot w s, busy := true, done := false, errcode := .ok }

/-- A write of `w` to CMD (R83): while BUSY = 1 the command is dropped and OVR set, nothing else. -/
def offerCommand (w : Word) (s : State) : State :=
  if s.busy then { s with ovr := true } else acceptCommand w s

/-- A write to STATUS: bit 3 clears OVR, every other bit is ignored (R24). -/
def writeStatus (v : Word) (s : State) : State := if v.getLsbD 3 then { s with ovr := false } else s

/-- A write to CTRL: bit 0 is SRST, a soft reset; the other bits are ignored (R25, R172). -/
def writeCtrl (v : Word) (s : State) : State := if v.getLsbD 0 then resetEngine s else s

/-- The registers of the window (10_state.md R20). -/
inductive Reg where
  | id | cmd | status | ctrl | keyHi | keyLo | dinHi | dinLo | doutHi | doutLo | fkeyHi | fkeyLo | reserved
  deriving DecidableEq, Repr

/-- The register at a byte offset of the window (R20); 0x30 to 0x3C are reserved (R56). -/
def regAt (off : Nat) : Reg :=
  match off with
  | 0x00 => .id
  | 0x04 => .cmd
  | 0x08 => .status
  | 0x0C => .ctrl
  | 0x10 => .keyHi
  | 0x14 => .keyLo
  | 0x18 => .dinHi
  | 0x1C => .dinLo
  | 0x20 => .doutHi
  | 0x24 => .doutLo
  | 0x28 => .fkeyHi
  | 0x2C => .fkeyLo
  | _ => .reserved

/-- The effect of a 32-bit write to a register (42_control.md R171). -/
def writeReg (r : Reg) (v : Word) (s : State) : State :=
  match r with
  | .cmd => offerCommand v s
  | .status => writeStatus v s
  | .ctrl => writeCtrl v s
  | .keyHi => { s with key := setHiWord s.key v }
  | .keyLo => { s with key := setLoWord s.key v }
  | .dinHi => { s with din := setHiWord s.din v }
  | .dinLo => { s with din := setLoWord s.din v }
  | .fkeyHi => { s with fkey := setFkeyHi s.fkey v }
  | .fkeyLo => { s with fkey := setFkeyLo s.fkey v }
  | .id => s
  | .doutHi => s
  | .doutLo => s
  | .reserved => s

/-- The value a 32-bit read of a register returns (42_control.md R173). Write-only and reserved registers read 0 (R56). -/
def readReg (r : Reg) (s : State) : Word :=
  match r with
  | .id => 0x44455331#32
  | .status => statusWord s
  | .dinHi => hiWord s.din
  | .dinLo => loWord s.din
  | .doutHi => hiWord s.dout
  | .doutLo => loWord s.dout
  | .fkeyHi => fkeyHiWord s.fkey
  | .fkeyLo => fkeyLoWord s.fkey
  | .cmd => 0
  | .ctrl => 0
  | .keyHi => 0
  | .keyLo => 0
  | .reserved => 0

end Sys2Proof.Machine
end

