-- ==== Sys2Proof/Machine/Cipher.lean ====
section
/-! DEFINITION. The round function, the Feistel network and the cipher commands ENCRYPT, DECRYPT (41_cipher.md). -/

namespace Sys2Proof.Machine

/-- `row(b)`: the outer two bits, the first bit high (R136). -/
def sboxRow (b : BitVec 6) : Nat := 2 * (b.getLsbD 5).toNat + (b.getLsbD 0).toNat

/-- `col(b)`: the middle four bits (R136). -/
def sboxCol (b : BitVec 6) : Nat := (b.extractLsb' 1 4).toNat

/-- `Si(b) = S_TABLE_i[row(b)][col(b)]` (R136). -/
def sbox (table : List (List Nat)) (b : BitVec 6) : BitVec 4 :=
  BitVec.ofNat 4 ((table.getD (sboxRow b) []).getD (sboxCol b) 0)

/-- The S-layer: group i through S-box i, S1's output the most significant nibble (R135, R145). -/
def sLayer (x : BitVec 48) : BitVec 32 :=
  sbox tableS1 (x.extractLsb' 42 6) ++ sbox tableS2 (x.extractLsb' 36 6) ++
  sbox tableS3 (x.extractLsb' 30 6) ++ sbox tableS4 (x.extractLsb' 24 6) ++
  sbox tableS5 (x.extractLsb' 18 6) ++ sbox tableS6 (x.extractLsb' 12 6) ++
  sbox tableS7 (x.extractLsb' 6 6) ++ sbox tableS8 (x.extractLsb' 0 6)

/-- The round function `f(R, K)` (R147). -/
def roundF (r : BitVec 32) (k : RoundKey) : BitVec 32 :=
  perm 32 tableP (sLayer (perm 48 tableE r ^^^ k))

/-- The Feistel halves L and R of the datapath (10_state.md R33): they exist inside one completion only (log 8). -/
structure Halves where
  l : BitVec 32
  r : BitVec 32
  deriving DecidableEq, Repr

/-- L0 and R0: IP of the block, split (R131, R133). -/
def splitBlock (block : Block) : Halves :=
  let v : Block := perm 64 tableIP block
  ⟨v.extractLsb' 32 32, v.extractLsb' 0 32⟩

/-- One round: "new_left = old_right, new_right = f(right, round_key) XOR old_left" (R148). -/
def feistelRound (h : Halves) (k : RoundKey) : Halves := ⟨h.r, h.l ^^^ roundF h.r k⟩

/-- The end of the network: the halves swapped, then FP (R148). -/
def joinHalves (h : Halves) : Block := perm 64 tableFP (h.r ++ h.l)

/-- `Crypt(block, keys)` (R148). -/
def crypt (block : Block) (keys : List RoundKey) : Block := joinHalves (keys.foldl feistelRound (splitBlock block))

/-- ENCRYPT (R150). -/
def execEncrypt (len : Nat) (s : State) : Host.Outcome State Fault Refusal :=
  if len ≠ 8 then fail .invalidBlock s
  else if s.kv = false then fail .noKey s
  else succeed (setDout (crypt s.pend.din (scheduleKeys s)) s)

/-- DECRYPT (R151): the same with the keys reversed. -/
def execDecrypt (len : Nat) (s : State) : Host.Outcome State Fault Refusal :=
  if len ≠ 8 then fail .invalidBlock s
  else if s.kv = false then fail .noKey s
  else succeed (setDout (crypt s.pend.din (scheduleKeys s).reverse) s)

end Sys2Proof.Machine
end

