-- ==== Sys2Proof/Machine/Control.lean ====
section
/-! DEFINITION. The control command NOP (42_control.md). -/

namespace Sys2Proof.Machine

/-- NOP (R170): no effect other than its completion. -/
def execNop (s : State) : Host.Outcome State Fault Refusal := succeed s

end Sys2Proof.Machine
end

