-- ==== Sys2Proof/Machine/KeySchedule.lean ====
section
/-! DEFINITION. The key-schedule generator and the schedule commands KEYSCHED, FORCEKEY, RKREAD (40_keyschedule.md). -/

namespace Sys2Proof.Machine

/-- The key-schedule halves C and D of the datapath (10_state.md R33): they exist inside one completion only (log 8). -/
structure KeyHalves where
  c : BitVec 28
  d : BitVec 28
  deriving DecidableEq, Repr

/-- C0 and D0: PC1 of the key, split (R101, R102). -/
def splitKey (key : Block) : KeyHalves :=
  let cd : BitVec 56 := perm 56 tablePC1 key
  ⟨cd.extractLsb' 28 28, cd.extractLsb' 0 28⟩

/-- Both halves rotate by the same amount, each within itself (R104). -/
def rotateHalves (s : Nat) (h : KeyHalves) : KeyHalves := ⟨rotl28 h.c s, rotl28 h.d s⟩

/-- The round key of a round whose halves are `h`: PC2 of `Cn || Dn` (R105). -/
def pickRoundKey (h : KeyHalves) : RoundKey := perm 48 tablePC2 (h.c ++ h.d)

/-- The round keys for a list of rotation amounts, the rotation applied before PC2 and carried on (R104, R106). -/
def roundKeysFrom : List Nat → KeyHalves → List RoundKey
  | [], _ => []
  | s :: rest, h => pickRoundKey (rotateHalves s h) :: roundKeysFrom rest (rotateHalves s h)

/-- `KS(key, n)` (R106). -/
def keySchedule (key : Block) (n : Nat) : List RoundKey := roundKeysFrom (tableROT.take n) (splitKey key)

/-- KEYSCHED (R120). -/
def execKeysched (len rnd : Nat) (s : State) : Host.Outcome State Fault Refusal :=
  if len ≠ 8 then fail .invalidKey s
  else match rounds rnd with
    | none => fail .invalidRounds s
    | some n => succeed (loadSchedule (keySchedule s.pend.key n) false s)

/-- FORCEKEY (R121): every slot up to the round count holds the host's FKEY, as snapshotted. -/
def execForcekey (rnd : Nat) (s : State) : Host.Outcome State Fault Refusal :=
  match rounds rnd with
  | none => fail .invalidRounds s
  | some n => succeed (loadSchedule (List.replicate n s.pend.fkey) true s)

/-- RKREAD (R122). -/
def execRkread (idx : Nat) (s : State) : Host.Outcome State Fault Refusal :=
  if s.kv = false then fail .noKey s
  else if s.nr.toNat ≤ idx then fail .rkRange s
  else succeed (setDout ((rkSlot s idx).setWidth 64) s)

end Sys2Proof.Machine
end

