-- ==== Sys2Proof/Machine/Dispatch.lean ====
section
/-! DEFINITION. The dispatch of 30_encoding.md R85: one arm per command, each a whole completion (R84). -/

namespace Sys2Proof.Machine

def exec (i : Instr) (s : State) : Host.Outcome State Fault Refusal :=
  match i with
  | .nop => Sys2Proof.Machine.execNop s
  | .keysched len rnd => Sys2Proof.Machine.execKeysched len rnd s
  | .encrypt len => Sys2Proof.Machine.execEncrypt len s
  | .decrypt len => Sys2Proof.Machine.execDecrypt len s
  | .forcekey rnd => Sys2Proof.Machine.execForcekey rnd s
  | .rkread idx => Sys2Proof.Machine.execRkread idx s

end Sys2Proof.Machine
end

