-- ==== Sys2Proof/Machine/HostPort.lean ====
section
/-! DEFINITION. The host's side: the bus access to the register window (20_memory.md R53 to R57, 42_control.md R171, R173), the
reset input's effect on it (70_reset_and_hazards.md R201), and one step of the host's program with its WAIT loop (30_encoding.md
R82). -/

namespace Sys2Proof.Machine

/-- The window offset of a bus address, none outside `[BASE, BASE + 0x40)` (R53; log 5). -/
def windowOffset (addr : Nat) : Option Nat :=
  if Config.base ≤ addr ∧ addr < Config.base + Config.windowBytes then some (addr - Config.base) else none

/-- An access the window takes: 32 bits wide at an offset that is a multiple of 4 (R54, R55). -/
def legalAccess (width off : Nat) : Bool := width == 32 && off % 4 == 0

/-- What the host has seen of the bus grows by one answer (R19). -/
def observe (r : BusResponse) (s : State) : State := { s with observed := s.observed ++ [r] }

/-- The bus's answer to a read (R173). While reset is asserted reads return 0 (R201; log 7). -/
def readResponse (width off : Nat) (s : State) : BusResponse :=
  if s.resetAsserted then .data 0
  else if legalAccess width off then .data (readReg (regAt off) s)
  else .busError off

/-- `BusRead(off)` (R173): no state of the engine changes (R57); the host sees the answer. -/
def busRead (width off : Nat) (s : State) : State := observe (readResponse width off s) s

/-- `BusWrite(off, v)` (R171). While reset is asserted it is ignored (R201); an illegal access has no effect but the error response,
which is the model's record of the host fault (R55, R189; log 6). -/
def busWrite (width off : Nat) (v : Word) (s : State) : State :=
  if s.resetAsserted then s
  else if legalAccess width off then writeReg (regAt off) v s
  else observe (.busError off) s

/-- A write at a bus address: outside the window it is not the engine's (R53). -/
def hostWrite (addr width : Nat) (v : Word) (s : State) : Host.Outcome State Fault Refusal :=
  match windowOffset addr with
  | none => .fault (.outsideWindow addr)
  | some off => .next (busWrite width off v s)

/-- A read at a bus address. -/
def hostRead (addr width : Nat) (s : State) : Host.Outcome State Fault Refusal :=
  match windowOffset addr with
  | none => .fault (.outsideWindow addr)
  | some off => .next (busRead width off s)

/-- The loop test of WAIT: the STATUS just read had bit 0 set (R82). -/
def statusSaysBusy : BusResponse → Bool
  | .data v => v.getLsbD 0
  | .busError _ => false

/-- One turn of `WAIT -> L: rd STATUS -> s; if s[0] = 1 goto L` (R82): one read, after which the loop is left or stays next. `s` is the
state with WAIT already taken off the host's program. -/
def hostWait (s : State) : Host.Outcome State Fault Refusal :=
  if statusSaysBusy (readResponse 32 0x08 s) then .next (busRead 32 0x08 { s with host := .wait :: s.host })
  else .next (busRead 32 0x08 s)

/-- One operation of the host's program. -/
def hostOp (op : HostOp) (s : State) : Host.Outcome State Fault Refusal :=
  match op with
  | .write addr width v => hostWrite addr width v s
  | .read addr width => hostRead addr width s
  | .wait => hostWait s

/-- A step of the host: its next operation, in program order (R60); a host with nothing left to do leaves everything as it is. -/
def hostTurn (s : State) : Host.Outcome State Fault Refusal :=
  match s.host with
  | [] => .next s
  | op :: rest => hostOp op { s with host := rest }

end Sys2Proof.Machine
end

