-- ==== Sys2Proof/Machine/Turns.lean ====
section
/-! DEFINITION. The engine's step (30_encoding.md R84) and the choice of who moves (20_memory.md R60, 60_exceptions.md R191). -/

namespace Sys2Proof.Machine

/-- `execute(decode(PEND.CMD))` with its completion (R84, R85): an ILLEGAL word completes with ILLEGAL_CMD (R181). -/
def completeCommand (s : State) : Host.Outcome State Fault Refusal :=
  match decode s.pend.cmd with
  | .ok i => exec i s
  | .error _ => fail .illegalCmd s

/-- The completion step is enabled when BUSY = 1 (R84), and not while reset is asserted: a command in flight then "never completes"
(R201). -/
def completionEnabled (s : State) : Bool := s.busy && !s.resetAsserted

/-- The engine's turn: its completion where that is enabled; otherwise the engine has no step and nothing changes. -/
def engineTurn (s : State) : Host.Outcome State Fault Refusal :=
  if completionEnabled s then completeCommand s else .next s

/-- A turn with the schedule used up: a pending completion is taken, else the host moves. This is the weak fairness of R84 (log 2). -/
def fairTurn (s : State) : Host.Outcome State Fault Refusal :=
  if completionEnabled s then completeCommand s else hostTurn s

/-- The agent the schedule names moves; the turn is used up. -/
def takeTurn (s : State) : Host.Outcome State Fault Refusal :=
  match s.schedule with
  | [] => fairTurn s
  | .host :: rest => hostTurn { s with schedule := rest }
  | .engine :: rest => engineTurn { s with schedule := rest }
  | .assertReset :: rest => .next (assertReset { s with schedule := rest })
  | .releaseReset :: rest => .next (releaseReset { s with schedule := rest })

/-- The state in which `w` has just been accepted and the engine moves next, with the reset input released: where the engine takes its
next command from is PEND (R31, R65), and acceptance is what puts a word there (R83; log 12). -/
def placeCommand (w : Word) (s : State) : State :=
  { acceptCommand w s with resetAsserted := false, schedule := .engine :: s.schedule }

end Sys2Proof.Machine
end

