-- ==== Sys2Proof/Machine/Step.lean ====
section
/-! DEFINITION. One step of the machine: one host access, one completion, or one change of the reset input (00_scope.md R17,
20_memory.md R60, 70_reset_and_hazards.md R201). -/

namespace Sys2Proof.Machine

/-- One step. -/
def step (s : State) : Host.Outcome State Fault Refusal := takeTurn s

/-- `s` with the command word `w` accepted and the engine to move, so that the next step completes exactly it (log 12). Every command is
32 bits (30_encoding.md R70); bits at and above `nbits` are zero. -/
def State.withFetchWord (s : State) (nbits w : Nat) : State := placeCommand (BitVec.ofNat 32 (w % 2 ^ nbits)) s

end Sys2Proof.Machine
end

