-- ==== Sys2Proof/Machine/Assembler.lean ====
section
/-! DEFINITION. The assembler of 30_encoding.md R81, R82: the written commands with their defaults and canonical words, and the
host's pseudo-instructions with their expansions into bus accesses. It makes host programs; no step depends on it. -/

namespace Sys2Proof.Machine

/-- A command as written (R82). `none` is an omitted operand. -/
inductive AsmCommand where
  | nop
  | keysched (rounds len : Option Nat)
  | encrypt (len : Option Nat)
  | decrypt (len : Option Nat)
  | forcekey (rounds : Option Nat)
  | rkread (idx : Nat)
  deriving DecidableEq, Repr

/-- A written round count is 1 to 16, or omitted (R82). -/
def roundsSpelled : Option Nat → Bool
  | none => true
  | some n => decide (1 ≤ n) && decide (n ≤ 16)

/-- A written length is 0 to 15, or omitted (R82). -/
def lenSpelled : Option Nat → Bool
  | none => true
  | some n => decide (n < 16)

/-- The commands the syntax of R82 admits. -/
def AsmCommand.valid : AsmCommand → Bool
  | .nop => true
  | .keysched rounds len => roundsSpelled rounds && lenSpelled len
  | .encrypt len => lenSpelled len
  | .decrypt len => lenSpelled len
  | .forcekey rounds => roundsSpelled rounds
  | .rkread idx => decide (idx < 16)

/-- "The assembler spells 16 rounds as RND = 0"; "An omitted `rounds` means 16 (RND = 0)" (R81, R82). -/
def rndOf : Option Nat → Nat
  | none => 0
  | some n => if n = 16 then 0 else n

/-- "An omitted `len` means 8" (R82). -/
def lenOf (len : Option Nat) : Nat := len.getD 8

/-- The command a written command stands for (R82). -/
def assemble : AsmCommand → Instr
  | .nop => .nop
  | .keysched rounds len => .keysched (lenOf len) (rndOf rounds)
  | .encrypt len => .encrypt (lenOf len)
  | .decrypt len => .decrypt (lenOf len)
  | .forcekey rounds => .forcekey (rndOf rounds)
  | .rkread idx => .rkread idx

/-- The canonical word of a written command (R81). -/
def asmWord (c : AsmCommand) : Word := encode (assemble c)

/-- `wr <reg>, v` at a window offset: one 32-bit write at BASE + off (R82, 00_scope.md R13). -/
def wr (off : Nat) (v : Word) : HostOp := .write (Config.base + off) 32 v

/-- `rd <reg>` at a window offset: one 32-bit read at BASE + off (R82, 00_scope.md R13). -/
def rd (off : Nat) : HostOp := .read (Config.base + off) 32

/-- `LOADKEY k` (R82). -/
def loadKey (k : Block) : List HostOp := [wr 0x10 (hiWord k), wr 0x14 (loWord k)]

/-- `LOADBLK b` (R82). -/
def loadBlk (b : Block) : List HostOp := [wr 0x18 (hiWord b), wr 0x1C (loWord b)]

/-- `LOADFKEY k` (R82). -/
def loadFkey (k : RoundKey) : List HostOp := [wr 0x28 (fkeyHiWord k), wr 0x2C (fkeyLoWord k)]

/-- `ISSUE <command>` (R82). -/
def issue (c : AsmCommand) : List HostOp := [wr 0x04 (asmWord c)]

/-- `WAIT` (R82): the host's own loop. -/
def waitIdle : List HostOp := [.wait]

/-- `RESULT -> r` (R82): the two reads; r is the first answer followed by the second. -/
def readResult : List HostOp := [rd 0x20, rd 0x24]

/-- `SRESET` (R82). -/
def sreset : List HostOp := [wr 0x0C 0x00000001#32]

/-- `CLROVR` (R82). -/
def clrovr : List HostOp := [wr 0x08 0x00000008#32]

end Sys2Proof.Machine
end

