-- ==== Sys2Proof/Safety.lean ====
section
/-! DEFINITION. What a run and a good run are, which event a step is, and the invariants of the engine's state: the schedule fields
(10_state.md R30), the status bits (R24), the reset state (70_reset_and_hazards.md R200), host faults (20_memory.md R55). -/

namespace Sys2Proof.Safety

open Sys2Proof.Machine

/-- `n` steps from `s`. -/
def run (n : Nat) (s : State) : Host.Outcome State Fault Refusal := Sys2Proof.core.run n s

/-! ## Host faults -/

/-- An answer that is the bus's error response. -/
def isBusError : BusResponse → Bool
  | .data _ => false
  | .busError _ => true

/-- The record of a host fault: the bus has answered some access with an error (R55). -/
def hostFaulted (s : State) : Bool := s.observed.any isBusError

/-- "a run with a host fault is never a good final state" (R55): good is an idle engine and no host fault. -/
def goodFinal (s : State) : Bool := !s.busy && !hostFaulted s

/-! ## Which event the next step is -/

/-- The next step is a completion (30_encoding.md R84). -/
def engineCompletes (s : State) : Bool :=
  match s.schedule with
  | [] => completionEnabled s
  | .engine :: _ => completionEnabled s
  | .host :: _ => false
  | .assertReset :: _ => false
  | .releaseReset :: _ => false

/-- The host operation the next step performs, none where it is not the host's turn or nothing is left. -/
def hostOpNext (s : State) : Option HostOp :=
  match s.schedule with
  | [] => if completionEnabled s then none else s.host.head?
  | .host :: _ => s.host.head?
  | .engine :: _ => none
  | .assertReset :: _ => none
  | .releaseReset :: _ => none

/-- A legal 32-bit write to the register at offset `off`, with a condition on the value. -/
def writesWhen (off : Nat) (p : Word → Bool) : HostOp → Bool
  | .write addr width v => windowOffset addr == some off && legalAccess width off && p v
  | .read _ _ => false
  | .wait => false

/-- A CTRL write with bit 0 set (42_control.md R172). -/
def isSoftReset : HostOp → Bool := writesWhen 0x0C (·.getLsbD 0)

/-- A STATUS write with bit 3 set (10_state.md R24). -/
def isOvrClear : HostOp → Bool := writesWhen 0x08 (·.getLsbD 3)

/-- A CMD write (30_encoding.md R83). -/
def isCmdWrite : HostOp → Bool := writesWhen 0x04 (fun _ => true)

/-- The next step is a host operation with property `p` that the engine does not ignore (it ignores all while reset is asserted). -/
def hostDoesNext (p : HostOp → Bool) (s : State) : Bool := !s.resetAsserted && (hostOpNext s).any p

/-- The next step changes the reset input. -/
def resetInputNext (s : State) : Bool := s.schedule.head? == some .assertReset || s.schedule.head? == some .releaseReset

/-- The next step resets the engine: the reset input (70_reset_and_hazards.md R201) or a soft reset (R172). -/
def resetNext (s : State) : Bool := resetInputNext s || hostDoesNext isSoftReset s

/-- The access, if it is one, is inside the window (20_memory.md R53). -/
def inWindow : HostOp → Bool
  | .write addr _ _ => (windowOffset addr).isSome
  | .read addr _ => (windowOffset addr).isSome
  | .wait => true

/-! ## Invariants -/

/-- The invariants of the schedule fields (R30), item by item. -/
structure ScheduleInv (s : State) : Prop where
  /-- `KV = 0` implies `NR = 0` and `DEGEN = 0`. -/
  unloaded : s.kv = false → s.nr = 0 ∧ s.degen = false
  /-- `KV = 1` implies `1 <= NR <= 16`. -/
  loaded : s.kv = true → 1 ≤ s.nr.toNat ∧ s.nr.toNat ≤ 16
  /-- `DEGEN = 1` implies `RK[0] = ... = RK[NR-1]`. -/
  repeated : s.degen = true → ∀ i < s.nr.toNat, rkSlot s i = rkSlot s 0
  /-- Slots `NR..15` are 0. -/
  cleared : ∀ i, s.nr.toNat ≤ i → i < 16 → rkSlot s i = 0

/-- The status bits: while a command is in flight DONE and ERRCODE are 0 (R24, R62); ERRCODE is 0 until some command has completed;
no command is in flight and no schedule loaded while reset is asserted (R201). -/
structure StatusInv (s : State) : Prop where
  inFlight : s.busy = true → s.done = false
  notDone : s.done = false → s.errcode = .ok
  underReset : s.resetAsserted = true → s.busy = false ∧ s.done = false ∧ s.kv = false

/-- Both invariants. -/
structure Inv (s : State) : Prop where
  schedule : ScheduleInv s
  status : StatusInv s

/-- Every register and internal field the spec gives a reset value is at it (R200). PEND is unspecified there, so nothing is said of it. -/
structure EngineReset (t : State) : Prop where
  key : t.key = 0
  din : t.din = 0
  dout : t.dout = 0
  fkey : t.fkey = 0
  rk : ∀ i, i < 16 → rkSlot t i = 0
  nr : t.nr = 0
  kv : t.kv = false
  degen : t.degen = false
  busy : t.busy = false
  done : t.done = false
  ovr : t.ovr = false
  errcode : t.errcode = .ok

end Sys2Proof.Safety
end

