-- ==== Sys2Proof/Certificates/Slice0/Obligations.lean ====
section
/-! DEFINITION. The statements for the provers, in the order of the spec's files: encoding, the commands, the cipher, the register
window, the whole machine. Each docstring names the rule it formalises. A statement says nothing of PEND after a reset (unspecified,
log 3) nor of freeIndex but where it says that it does not change. -/

open Sys2Proof Sys2Proof.Machine Sys2Proof.Safety

/-! ## Encoding (30_encoding.md) -/

/-- Words written out from the format of R71 decode to what they stand for (95_test_vectors.md 2.9). -/
def Obligations.DecodeOfWrittenWords : Prop :=
  decode 0x00000000#32 = .ok .nop ∧
  decode 0x00000081#32 = .ok (.keysched 8 0) ∧
  decode 0x00001171#32 = .ok (.keysched 7 17) ∧
  decode 0x00000082#32 = .ok (.encrypt 8) ∧
  decode 0x00000083#32 = .ok (.decrypt 8) ∧
  decode 0x00001104#32 = .ok (.forcekey 17) ∧
  decode 0x000F0005#32 = .ok (.rkread 15) ∧
  decode 0x00002081#32 = .error (.nonzeroUnusedBits 1) ∧
  decode 0x00000006#32 = .error (.reservedOpcode 6)

/-- No bit of an encoding is dropped: every well-formed command, at every operand value its fields admit, comes back. -/
def Obligations.DecodeOfEncode : Prop :=
  ∀ i : Instr, i.wellFormed = true → decode (encode i) = .ok i

/-- No two words mean the same command: a word that decodes is the encoding of what it decodes to. -/
def Obligations.EncodeOfDecode : Prop :=
  ∀ (w : Word) (i : Instr), decode w = .ok i → encode i = w ∧ i.wellFormed = true

/-- R79: the decoder, line by line, with the spec's masks, and nothing else decodes. -/
def Obligations.DecodeSelectsByMaskAndMatch : Prop :=
  ∀ w : Word,
    (decode w = .ok .nop ↔ w = 0x00000000#32) ∧
    (∀ len rnd, decode w = .ok (.keysched len rnd) ↔
      w &&& 0xFFFFE00F#32 = 0x00000001#32 ∧ len = (w.extractLsb 7 4).toNat ∧ rnd = (w.extractLsb 12 8).toNat) ∧
    (∀ len, decode w = .ok (.encrypt len) ↔ w &&& 0xFFFFFF0F#32 = 0x00000002#32 ∧ len = (w.extractLsb 7 4).toNat) ∧
    (∀ len, decode w = .ok (.decrypt len) ↔ w &&& 0xFFFFFF0F#32 = 0x00000003#32 ∧ len = (w.extractLsb 7 4).toNat) ∧
    (∀ rnd, decode w = .ok (.forcekey rnd) ↔ w &&& 0xFFFFE0FF#32 = 0x00000004#32 ∧ rnd = (w.extractLsb 12 8).toNat) ∧
    (∀ idx, decode w = .ok (.rkread idx) ↔ w &&& 0xFFF0FFFF#32 = 0x00000005#32 ∧ idx = (w.extractLsb 19 16).toNat)

/-- R181: which words are ILLEGAL (reserved OPC, a reserved bit, an unused field per R77), and that completing one changes STATUS
alone. -/
def Obligations.IllegalWordsCompleteWithIllegalCmd : Prop :=
  (∀ w : Word, (∃ e, decode w = .error e) ↔
    6 ≤ (w.extractLsb 3 0).toNat ∨
    w.extractLsb 15 13 ≠ 0 ∨ w.extractLsb 31 20 ≠ 0 ∨
    (w.extractLsb 7 4 ≠ 0 ∧ (w.extractLsb 3 0).toNat ∈ [0, 4, 5]) ∨
    (w.extractLsb 12 8 ≠ 0 ∧ (w.extractLsb 3 0).toNat ∈ [0, 2, 3, 5]) ∨
    (w.extractLsb 19 16 ≠ 0 ∧ (w.extractLsb 3 0).toNat ∈ [0, 1, 2, 3, 4])) ∧
  (∀ (s : State) (e : Illegal), decode s.pend.cmd = .error e →
    completeCommand s = .next { s with busy := false, done := true, errcode := .illegalCmd })

/-- R81: the words the assembler emits, and RND = 16 means what RND = 0 means. -/
def Obligations.CanonicalWords : Prop :=
  asmWord .nop = 0x00000000#32 ∧
  asmWord (.keysched none none) = 0x00000081#32 ∧
  (∀ n, 1 ≤ n → n ≤ 15 → asmWord (.keysched (some n) none) = 0x00000081#32 ||| (BitVec.ofNat 32 n <<< 8)) ∧
  asmWord (.keysched (some 16) none) = 0x00000081#32 ∧
  asmWord (.encrypt none) = 0x00000082#32 ∧
  asmWord (.decrypt none) = 0x00000083#32 ∧
  asmWord (.forcekey none) = 0x00000004#32 ∧
  (∀ n, 1 ≤ n → n ≤ 15 → asmWord (.forcekey (some n)) = 0x00000004#32 ||| (BitVec.ofNat 32 n <<< 8)) ∧
  asmWord (.forcekey (some 16)) = 0x00000004#32 ∧
  (∀ i, i ≤ 15 → asmWord (.rkread i) = 0x00000005#32 ||| (BitVec.ofNat 32 i <<< 16)) ∧
  decode 0x00001081#32 = .ok (.keysched 8 16) ∧ decode 0x00001004#32 = .ok (.forcekey 16) ∧
  (∀ s : State, exec (.keysched 8 16) s = exec (.keysched 8 0) s ∧ exec (.forcekey 16) s = exec (.forcekey 0) s)

/-- R82: a command the assembler can spell is well formed, and its word decodes to it. -/
def Obligations.AssembledCommandsDecode : Prop :=
  ∀ c : AsmCommand, c.valid = true → (assemble c).wellFormed = true ∧ decode (asmWord c) = .ok (assemble c)

/-! ## The commands (40_keyschedule.md, 41_cipher.md, 42_control.md) -/

/-- R170: NOP is the word 0 only, is accepted like any command, changes nothing but STATUS, and offered while BUSY = 1 is dropped with
OVR; a word with OPC = 0 and any other bit set completes with ILLEGAL_CMD. -/
def Obligations.NopCompletes : Prop :=
  (∀ w : Word, decode w = .ok .nop ↔ w = 0) ∧
  (∀ s : State, exec .nop s = .next { s with busy := false, done := true, errcode := .ok }) ∧
  (∀ s : State, s.pend.cmd.extractLsb 3 0 = 0 → s.pend.cmd ≠ 0 →
    completeCommand s = .next { s with busy := false, done := true, errcode := .illegalCmd }) ∧
  (∀ s : State, s.resetAsserted = false → s.busy = false → busWrite 32 0x04 0 s =
    { s with pend := ⟨0, s.key, s.din, s.fkey⟩, busy := true, done := false, errcode := .ok }) ∧
  (∀ s : State, s.resetAsserted = false → s.busy = true → busWrite 32 0x04 0 s = { s with ovr := true })

/-- R120, the successful form: the slots, NR, KV, DEGEN, the completion status, and nothing else. -/
def Obligations.KeyschedLoadsTheSchedule : Prop :=
  ∀ (s : State) (rnd n : Nat), (rnd = 0 ∧ n = 16) ∨ (1 ≤ rnd ∧ rnd ≤ 16 ∧ n = rnd) →
    ∃ t, exec (.keysched 8 rnd) s = .next t ∧
      (∀ i, i < n → (keySchedule s.pend.key n)[i]? = some (rkSlot t i)) ∧
      (∀ i, n ≤ i → i < 16 → rkSlot t i = 0) ∧
      t.nr.toNat = n ∧
      t = { s with rk := t.rk, nr := t.nr, kv := true, degen := false, busy := false, done := true, errcode := .ok }

/-- R121, the successful form: every slot up to the round count holds the snapshotted FKEY, the rest 0; KEY plays no part. -/
def Obligations.ForcekeyLoadsOneKey : Prop :=
  ∀ (s : State) (rnd n : Nat), (rnd = 0 ∧ n = 16) ∨ (1 ≤ rnd ∧ rnd ≤ 16 ∧ n = rnd) →
    ∃ t, exec (.forcekey rnd) s = .next t ∧
      (∀ i, i < n → rkSlot t i = s.pend.fkey) ∧
      (∀ i, n ≤ i → i < 16 → rkSlot t i = 0) ∧
      t.nr.toNat = n ∧
      t = { s with rk := t.rk, nr := t.nr, kv := true, degen := true, busy := false, done := true, errcode := .ok }

/-- R122, the successful form: DOUT takes the slot, zero-extended, and nothing else but STATUS changes. -/
def Obligations.RkreadReadsTheSlot : Prop :=
  ∀ (s : State) (i : Fin 16), s.kv = true → i.val < s.nr.toNat →
    exec (.rkread i.val) s = .next { s with dout := 0#16 ++ s.rk[i], busy := false, done := true, errcode := .ok }

/-- R150, the successful form: DOUT is Crypt of the snapshotted block under RK[0], ..., RK[NR-1]. -/
def Obligations.EncryptRunsTheKeysForward : Prop :=
  ∀ s : State, s.kv = true → s.nr.toNat ≤ 16 →
    exec (.encrypt 8) s = .next { s with
      dout := crypt s.pend.din ((List.range s.nr.toNat).map (rkSlot s)), busy := false, done := true, errcode := .ok }

/-- R151, the successful form: the same under RK[NR-1], ..., RK[0]. -/
def Obligations.DecryptRunsTheKeysBackward : Prop :=
  ∀ s : State, s.kv = true → s.nr.toNat ≤ 16 →
    exec (.decrypt 8) s = .next { s with
      dout := crypt s.pend.din ((List.range s.nr.toNat).map fun i => rkSlot s (s.nr.toNat - 1 - i)),
      busy := false, done := true, errcode := .ok }

/-- R190: the code of every completion, whatever the word: ILLEGAL, then LEN, then RND, then the schedule, then the index. A completion
always answers a next state, with BUSY 0 and DONE 1. The rule's two example words come first. -/
def Obligations.ErrorPriority : Prop :=
  decode 0x00000072#32 = .ok (.encrypt 7) ∧ decode 0x00001172#32 = .error (.nonzeroUnusedBits 2) ∧
  ∀ s : State, ∃ t, completeCommand s = .next t ∧ t.busy = false ∧ t.done = true ∧
    t.errcode = match decode s.pend.cmd with
      | .error _ => .illegalCmd
      | .ok .nop => .ok
      | .ok (.keysched len rnd) => if len ≠ 8 then .invalidKey else if 17 ≤ rnd then .invalidRounds else .ok
      | .ok (.encrypt len) => if len ≠ 8 then .invalidBlock else if s.kv = false then .noKey else .ok
      | .ok (.decrypt len) => if len ≠ 8 then .invalidBlock else if s.kv = false then .noKey else .ok
      | .ok (.forcekey rnd) => if 17 ≤ rnd then .invalidRounds else .ok
      | .ok (.rkread idx) => if s.kv = false then .noKey else if s.nr.toNat ≤ idx then .rkRange else .ok

/-- R184: errors are precise. A completion with any code but OK changes STATUS alone, and ERR then reads 1. -/
def Obligations.FailingCommandWritesStatusAlone : Prop :=
  ∀ s t : State, completeCommand s = .next t → t.errcode ≠ .ok →
    t = { s with busy := false, done := true, errcode := t.errcode } ∧ (readReg .status t).getLsbD 2 = true

/-- The frame of every command: operand registers, PEND, OVR, the reset input and the host's side are untouched; DOUT but by ENCRYPT,
DECRYPT, RKREAD; the schedule but by KEYSCHED, FORCEKEY. The engine has no memory (R35). That PEND outlives its completion is log 14. -/
def Obligations.CommandFrame : Prop :=
  ∀ (i : Instr) (s t : State), exec i s = .next t →
    t.key = s.key ∧ t.din = s.din ∧ t.fkey = s.fkey ∧ t.pend = s.pend ∧ t.ovr = s.ovr ∧
    t.resetAsserted = s.resetAsserted ∧ t.host = s.host ∧ t.schedule = s.schedule ∧ t.observed = s.observed ∧
    t.freeIndex = s.freeIndex ∧ t.busy = false ∧ t.done = true ∧
    (t.dout = s.dout ∨ (∃ len, i = .encrypt len) ∨ (∃ len, i = .decrypt len) ∨ (∃ idx, i = .rkread idx)) ∧
    ((t.rk = s.rk ∧ t.nr = s.nr ∧ t.kv = s.kv ∧ t.degen = s.degen) ∨
      (∃ len rnd, i = .keysched len rnd) ∨ (∃ rnd, i = .forcekey rnd))

/-- R31: completion reads operands only from PEND. Other values in KEY, DIN and FKEY change no command's effect. -/
def Obligations.OperandsComeFromPend : Prop :=
  ∀ (s t : State) (k d : Block) (f : RoundKey), completeCommand s = .next t →
    completeCommand { s with key := k, din := d, fkey := f } = .next { t with key := k, din := d, fkey := f }

/-- Under a forced schedule ENCRYPT and DECRYPT are one function (R121, R151), in every state that meets R30. -/
def Obligations.ForcedScheduleMakesDecryptEncrypt : Prop :=
  ∀ (s : State) (len : Nat), ScheduleInv s → s.degen = true → exec (.decrypt len) s = exec (.encrypt len) s

/-- R122 and 90_conflicts.md C1: slot 15 of a 16-round schedule is PC2 of PC1 of the key, as RKREAD shows it. -/
def Obligations.LastSlotIsUnrotated : Prop :=
  ∀ s : State, ∃ u, exec (.keysched 8 0) s = .next u ∧
    ∀ v : State, v.rk = u.rk → v.nr = u.nr → v.kv = u.kv →
      ∃ t, exec (.rkread 15) v = .next t ∧
        t.dout = 0#16 ++ perm 48 tablePC2 (perm 56 tablePC1 s.pend.key : BitVec 56)

/-- R152: under the schedule of any key and any round count, DECRYPT undoes ENCRYPT. -/
def Obligations.DecryptUndoesEncrypt : Prop :=
  ∀ (s : State) (rnd : Nat), rnd ≤ 16 →
    ∃ u, exec (.keysched 8 rnd) s = .next u ∧
      ∀ a b : State, a.rk = u.rk → a.nr = u.nr → a.kv = u.kv → b.rk = u.rk → b.nr = u.nr → b.kv = u.kv →
        ∃ c, exec (.encrypt 8) a = .next c ∧
          (b.pend.din = c.dout → ∃ t, exec (.decrypt 8) b = .next t ∧ t.dout = a.pend.din)

/-! ## The key schedule and the cipher (40_keyschedule.md R100 to R107, 41_cipher.md R130 to R149) -/

/-- R103, R104, R106: round key r comes from PC2 of the halves of PC1 rotated by the cumulative amount R103 lists; so slot 0 is taken after
one rotation (90_conflicts.md C1). -/
def Obligations.RoundKeysByCumulativeRotation : Prop :=
  ∀ (key : Block) (n r : Nat), n ≤ 16 → r < n →
    (keySchedule key n)[r]? = some (perm 48 tablePC2
      (((perm 56 tablePC1 key : BitVec 56).extractLsb 55 28).rotateLeft
          ([1, 2, 4, 6, 8, 10, 12, 14, 15, 17, 19, 21, 23, 25, 27, 28].getD r 0) ++
        ((perm 56 tablePC1 key : BitVec 56).extractLsb 27 0).rotateLeft
          ([1, 2, 4, 6, 8, 10, 12, 14, 15, 17, 19, 21, 23, 25, 27, 28].getD r 0)))

/-- R106: a shorter schedule is the beginning of the longest. -/
def Obligations.ShorterScheduleIsPrefix : Prop :=
  ∀ (key : Block) (n : Nat), n ≤ 16 → keySchedule key n = (keySchedule key 16).take n ∧ (keySchedule key n).length = n

/-- R107 item 1: the parity bits, DES positions 8, 16, ..., 64, play no part. -/
def Obligations.ParityBitsPlayNoPart : Prop :=
  ∀ (key flips : Block) (n : Nat), flips &&& 0xFEFEFEFEFEFEFEFE#64 = 0 → keySchedule (key ^^^ flips) n = keySchedule key n

/-- R107 item 4: the four weak keys give sixteen equal round keys. -/
def Obligations.WeakKeys : Prop :=
  keySchedule 0x0101010101010101#64 16 = List.replicate 16 0x000000000000#48 ∧
  keySchedule 0xFEFEFEFEFEFEFEFE#64 16 = List.replicate 16 0xFFFFFFFFFFFF#48 ∧
  keySchedule 0xE0E0E0E0F1F1F1F1#64 16 = List.replicate 16 0xFFFFFF000000#48 ∧
  keySchedule 0x1F1F1F1F0E0E0E0E#64 16 = List.replicate 16 0x000000FFFFFF#48

/-- R132: FP and IP undo each other. -/
def Obligations.FinalPermutationInvertsInitial : Prop :=
  ∀ v : Block, perm 64 tableFP (perm 64 tableIP v : Block) = v ∧ perm 64 tableIP (perm 64 tableFP v : Block) = v

/-- R147's worked example. -/
def Obligations.RoundFunctionExample : Prop :=
  perm 48 tableE 0xF0AAF0AA#32 = 0x7A15557A1555#48 ∧
  sLayer 0x6117BA866527#48 = 0x5C82B597#32 ∧
  roundF 0xF0AAF0AA#32 0x1B02EFFC7072#48 = 0x234AA9BB#32

/-- R149 item 1: the network undoes itself under the reversed keys, whatever the keys and however many. -/
def Obligations.NetworkUndoesItself : Prop :=
  ∀ (x : Block) (keys : List RoundKey), crypt (crypt x keys) keys.reverse = x

/-- R149 items 2 and 3: under one repeated key encryption is an involution, and sixteen repetitions are the round step run sixteen times
between IP and FP. -/
def Obligations.RepeatedKeyIsInvolution : Prop :=
  ∀ (x : Block) (k : RoundKey),
    (∀ n, crypt (crypt x (List.replicate n k)) (List.replicate n k) = x) ∧
    (let h := (fun h : Halves => feistelRound h k)^[16]
        ⟨(perm 64 tableIP x : Block).extractLsb 63 32, (perm 64 tableIP x : Block).extractLsb 31 0⟩
     crypt x (List.replicate 16 k) = perm 64 tableFP (h.r ++ h.l))

/-- R149 item 4: complementing key and block complements the result. -/
def Obligations.Complementation : Prop :=
  ∀ (x key : Block) (n : Nat), crypt (~~~x) (keySchedule (~~~key) n) = ~~~(crypt x (keySchedule key n))

/-! ## The register window (20_memory.md, 42_control.md) -/

/-- R171: a legal write, offset by offset; an illegal one changes no register (what the model records of it is log 6). -/
def Obligations.BusWriteByOffset : Prop :=
  ∀ (s : State) (v : Word), s.resetAsserted = false →
    busWrite 32 0x08 v s = (if v.getLsbD 3 then { s with ovr := false } else s) ∧
    busWrite 32 0x0C v s = (if v.getLsbD 0 then resetEngine s else s) ∧
    busWrite 32 0x10 v s = { s with key := v ++ s.key.extractLsb 31 0 } ∧
    busWrite 32 0x14 v s = { s with key := s.key.extractLsb 63 32 ++ v } ∧
    busWrite 32 0x18 v s = { s with din := v ++ s.din.extractLsb 31 0 } ∧
    busWrite 32 0x1C v s = { s with din := s.din.extractLsb 63 32 ++ v } ∧
    busWrite 32 0x28 v s = { s with fkey := v.extractLsb 15 0 ++ s.fkey.extractLsb 31 0 } ∧
    busWrite 32 0x2C v s = { s with fkey := s.fkey.extractLsb 47 32 ++ v } ∧
    (∀ off ∈ [0x00, 0x20, 0x24, 0x30, 0x34, 0x38, 0x3C], busWrite 32 off v s = s) ∧
    (∀ width off, width ≠ 32 ∨ off % 4 ≠ 0 → ∃ o, busWrite width off v s = { s with observed := o })

/-- R173: what a legal read returns, offset by offset, STATUS by the rule's own formula. -/
def Obligations.BusReadByOffset : Prop :=
  ∀ s : State, s.resetAsserted = false →
    readResponse 32 0x00 s = .data 0x44455331#32 ∧
    readResponse 32 0x08 s = .data
      ((s.errcode.bits.setWidth 32 <<< 16) ||| (s.nr.setWidth 32 <<< 8) ||| ((BitVec.ofBool s.degen).setWidth 32 <<< 5) |||
        ((BitVec.ofBool s.kv).setWidth 32 <<< 4) ||| ((BitVec.ofBool s.ovr).setWidth 32 <<< 3) |||
        ((BitVec.ofBool (s.errcode.bits != 0)).setWidth 32 <<< 2) ||| ((BitVec.ofBool s.done).setWidth 32 <<< 1) |||
        (BitVec.ofBool s.busy).setWidth 32) ∧
    readResponse 32 0x18 s = .data (s.din.extractLsb 63 32) ∧
    readResponse 32 0x1C s = .data (s.din.extractLsb 31 0) ∧
    readResponse 32 0x20 s = .data (s.dout.extractLsb 63 32) ∧
    readResponse 32 0x24 s = .data (s.dout.extractLsb 31 0) ∧
    readResponse 32 0x28 s = .data ((s.fkey.extractLsb 47 32).setWidth 32) ∧
    readResponse 32 0x2C s = .data (s.fkey.extractLsb 31 0) ∧
    (∀ off ∈ [0x04, 0x0C, 0x10, 0x14, 0x30, 0x34, 0x38, 0x3C], readResponse 32 off s = .data 0) ∧
    (∀ width off, width ≠ 32 ∨ off % 4 ≠ 0 → readResponse width off s = .busError off) ∧
    (∀ width off, busRead width off s = { s with observed := s.observed ++ [readResponse width off s] })

/-- R57: a read changes no state of the engine (only what the host has observed), returns the same value when repeated, and is
answered at any time, BUSY = 1 included. -/
def Obligations.ReadsHaveNoSideEffects : Prop :=
  ∀ (s : State) (width off : Nat),
    (∃ o, busRead width off s = { s with observed := o }) ∧
    (∀ width' off', readResponse width' off' (busRead width off s) = readResponse width' off' s) ∧
    (width = 32 → off % 4 = 0 → ∃ v, readResponse width off s = .data v)

/-- R83: the two outcomes of a CMD write. -/
def Obligations.CmdWriteIsAcceptedOrDropped : Prop :=
  ∀ (s : State) (w : Word), s.resetAsserted = false →
    (s.busy = true → busWrite 32 0x04 w s = { s with ovr := true }) ∧
    (s.busy = false → busWrite 32 0x04 w s =
      { s with pend := ⟨w, s.key, s.din, s.fkey⟩, busy := true, done := false, errcode := .ok })

/-- R172: a CTRL write with bit 0 set resets every register and field, and aborts a command in flight: no completion is enabled after
it. -/
def Obligations.SoftResetClearsEverything : Prop :=
  ∀ (s : State) (v : Word), s.resetAsserted = false → v.getLsbD 0 = true →
    EngineReset (busWrite 32 0x0C v s) ∧ completionEnabled (busWrite 32 0x0C v s) = false ∧
    (busWrite 32 0x0C v s).resetAsserted = false ∧ (busWrite 32 0x0C v s).host = s.host ∧
    (busWrite 32 0x0C v s).schedule = s.schedule ∧ (busWrite 32 0x0C v s).observed = s.observed

/-- R53: BASE is a multiple of 0x40; an access inside the window is the access at its offset, and one outside stops with the model's own
fault (log 5). -/
def Obligations.WindowIsAtBase : Prop :=
  Config.base % 0x40 = 0 ∧
  (∀ (s : State) (off width : Nat) (v : Word), off < 0x40 →
    hostWrite (Config.base + off) width v s = .next (busWrite width off v s) ∧
    hostRead (Config.base + off) width s = .next (busRead width off s)) ∧
  (∀ (s : State) (addr width : Nat) (v : Word), addr < Config.base ∨ Config.base + 0x40 ≤ addr →
    hostWrite addr width v s = .fault (.outsideWindow addr) ∧ hostRead addr width s = .fault (.outsideWindow addr))

/-- R82: the pseudo-instructions that load a wide register set exactly it, with two host steps. -/
def Obligations.LoadPseudoInstructions : Prop :=
  ∀ (s : State) (rest : List HostOp), s.resetAsserted = false → s.schedule = [.host, .host] →
    (∀ k, s.host = loadKey k ++ rest → run 2 s = .next { s with key := k, host := rest, schedule := [] }) ∧
    (∀ b, s.host = loadBlk b ++ rest → run 2 s = .next { s with din := b, host := rest, schedule := [] }) ∧
    (∀ f, s.host = loadFkey f ++ rest → run 2 s = .next { s with fkey := f, host := rest, schedule := [] })

/-- R82: RESULT reads DOUT, high word first, when nothing completes in between. -/
def Obligations.ResultReadsDout : Prop :=
  ∀ (s : State) (rest : List HostOp), s.resetAsserted = false → s.schedule = [.host, .host] → s.host = readResult ++ rest →
    ∃ h l, h ++ l = s.dout ∧
      run 2 s = .next { s with observed := s.observed ++ [.data h, .data l], host := rest, schedule := [] }

/-! ## The machine (00_scope.md, 10_state.md, 60_exceptions.md, 70_reset_and_hazards.md) -/

/-- R200: the state after reset, at power-on, after a soft reset and after the release of the reset input. PEND is unspecified there and not
spoken of. No completion is enabled: the engine waits for a CMD write. -/
def Obligations.ResetState : Prop :=
  (∀ t : State, EngineReset t → readReg .status t = 0x00000000#32 ∧ readReg .id t = 0x44455331#32 ∧ completionEnabled t = false) ∧
  EngineReset State.reset ∧
  (∀ s : State, s.resetAsserted = false → EngineReset (busWrite 32 0x0C 0x00000001#32 s)) ∧
  (∀ (s : State) (rest : List Turn), s.schedule = .releaseReset :: rest → ∃ t, step s = .next t ∧ EngineReset t)

/-- The engine's step is exec of the command PEND decodes to, at the state with the turn used up; a word that does not decode completes
with ILLEGAL_CMD; where no completion is enabled the engine's turn changes nothing (R84, R85; the turn is the model's, log 2). -/
def Obligations.StepRunsTheDecodedCommand : Prop :=
  (∀ (s : State) (i : Instr), engineCompletes s = true → decode s.pend.cmd = .ok i →
    step s = exec i { s with schedule := s.schedule.tail }) ∧
  (∀ (s : State) (e : Illegal), engineCompletes s = true → decode s.pend.cmd = .error e →
    step s = .next { s with schedule := s.schedule.tail, busy := false, done := true, errcode := .illegalCmd }) ∧
  (∀ (s : State) (rest : List Turn), s.schedule = .engine :: rest → (s.busy = false ∨ s.resetAsserted = true) →
    step s = .next { s with schedule := rest })

/-- withFetchWord places a word so that the next step runs it, with the operands as they stand in KEY, DIN and FKEY (the model's stand-in
for an accepted CMD write, log 12). -/
def Obligations.PlacedWordRunsNext : Prop :=
  ∀ (s : State) (w : Word) (i : Instr), decode w = .ok i →
    decodeTableWord 32 w.toNat = some i ∧
    step (s.withFetchWord 32 w.toNat) =
      exec i { s with pend := ⟨w, s.key, s.din, s.fkey⟩, busy := true, done := false, errcode := .ok, resetAsserted := false }

/-- R30: every step of the machine, of whatever agent, preserves the invariants of the schedule fields. -/
def Obligations.EveryStepKeepsScheduleInv : Prop :=
  ∀ s t : State, ScheduleInv s → step s = .next t → ScheduleInv t

/-- The status bits: while a command is in flight DONE is 0, and without DONE there is no code (R24, R62, R83, R84); under reset nothing is
in flight (R201; that the registers are reset from the assertion on is the model's, log 7). -/
def Obligations.EveryStepKeepsStatusInv : Prop :=
  ∀ s t : State, StatusInv s → step s = .next t → StatusInv t

/-- The invariants hold after reset. -/
def Obligations.ResetMeetsInv : Prop :=
  Inv State.reset

/-- R204: the schedule changes only by a successful KEYSCHED or FORCEKEY, or a reset. -/
def Obligations.OnlyKeyschedForcekeyAndResetChangeTheSchedule : Prop :=
  ∀ s t : State, step s = .next t →
    (t.rk = s.rk ∧ t.nr = s.nr ∧ t.kv = s.kv ∧ t.degen = s.degen) ∨
    (engineCompletes s = true ∧ t.errcode = .ok ∧
      ((∃ len rnd, decode s.pend.cmd = .ok (.keysched len rnd)) ∨ (∃ rnd, decode s.pend.cmd = .ok (.forcekey rnd)))) ∨
    resetNext s = true

/-- R27: DOUT changes only by a successful ENCRYPT, DECRYPT or RKREAD, or a reset. -/
def Obligations.OnlyCipherRkreadAndResetChangeDout : Prop :=
  ∀ s t : State, step s = .next t →
    t.dout = s.dout ∨
    (engineCompletes s = true ∧ t.errcode = .ok ∧
      ((∃ len, decode s.pend.cmd = .ok (.encrypt len)) ∨ (∃ len, decode s.pend.cmd = .ok (.decrypt len)) ∨
        (∃ idx, decode s.pend.cmd = .ok (.rkread idx)))) ∨
    resetNext s = true

/-- R62: while a command is in flight STATUS reads BUSY 1, DONE 0, ERR and ERRCODE 0 and the pre-command KV, DEGEN, NR, with OVR as it
stands; and a step after which it is still in flight has changed neither DOUT nor the schedule nor the snapshot. -/
def Obligations.InFlightReadsAreOld : Prop :=
  (∀ s : State, StatusInv s → s.busy = true →
    readResponse 32 0x08 s = .data ((s.nr.setWidth 32 <<< 8) ||| ((BitVec.ofBool s.degen).setWidth 32 <<< 5) |||
      ((BitVec.ofBool s.kv).setWidth 32 <<< 4) ||| ((BitVec.ofBool s.ovr).setWidth 32 <<< 3) ||| 1#32)) ∧
  (∀ s t : State, s.busy = true → step s = .next t → t.busy = true →
    t.dout = s.dout ∧ t.rk = s.rk ∧ t.nr = s.nr ∧ t.kv = s.kv ∧ t.degen = s.degen ∧ t.pend = s.pend ∧
    t.done = s.done ∧ t.errcode = s.errcode)

/-- R188: OVR is set by a CMD write while BUSY = 1, which leaves the command in flight as it is, and by nothing else; it is cleared by a
STATUS write with bit 3 set or by a reset, and by nothing else. -/
def Obligations.OverrunIsSticky : Prop :=
  ∀ s t : State, step s = .next t →
    (s.ovr = false → t.ovr = true →
      s.busy = true ∧ hostDoesNext isCmdWrite s = true ∧ t.busy = true ∧ t.pend = s.pend ∧ t.errcode = s.errcode) ∧
    (s.ovr = true → t.ovr = false → hostDoesNext isOvrClear s = true ∨ resetNext s = true) ∧
    (hostDoesNext isCmdWrite s = true → s.busy = true →
      t.ovr = true ∧ t.busy = true ∧ t.pend = s.pend ∧ t.done = s.done ∧ t.errcode = s.errcode) ∧
    (hostDoesNext isOvrClear s = true ∨ resetNext s = true → t.ovr = false)

/-- R55: an illegal access has no effect on the engine and is recorded, and a run that holds such a record is never a good final state
(that the run goes on is the model's reading, log 6). -/
def Obligations.HostFaultIsNeverGood : Prop :=
  (∀ (s : State) (width off : Nat) (v : Word), s.resetAsserted = false → width ≠ 32 ∨ off % 4 ≠ 0 →
    busWrite width off v s = { s with observed := s.observed ++ [.busError off] } ∧
    busRead width off s = { s with observed := s.observed ++ [.busError off] } ∧
    hostFaulted (busWrite width off v s) = true) ∧
  (∀ s t : State, hostFaulted s = true → step s = .next t → hostFaulted t = true ∧ goodFinal t = false)

/-- R201: the reset input. Asserting and releasing it put the engine in the state of R200; while it is asserted every access is ignored,
reads return 0 and nothing completes. That the state is already that of R200 while the input is asserted is the model's (log 7). -/
def Obligations.ResetInput : Prop :=
  ∀ s : State,
    (∀ rest, s.schedule = .assertReset :: rest → ∃ t, step s = .next t ∧ EngineReset t ∧ t.resetAsserted = true ∧
      t.host = s.host ∧ t.schedule = rest ∧ t.observed = s.observed) ∧
    (∀ rest, s.schedule = .releaseReset :: rest → ∃ t, step s = .next t ∧ EngineReset t ∧ t.resetAsserted = false ∧
      t.host = s.host ∧ t.schedule = rest ∧ t.observed = s.observed) ∧
    (s.resetAsserted = true →
      (∀ width off v, busWrite width off v s = s) ∧ (∀ width off, readResponse width off s = .data 0) ∧
      engineCompletes s = false)

/-- R23, R195: the master key cannot be read back. Two machines that differ only in KEY and in its snapshot still differ only there after
any step but the completion of a KEYSCHED; so the bus has answered both alike. -/
def Obligations.KeyLeavesOnlyThroughKeysched : Prop :=
  ∀ (s t : State) (k p : Block), step s = .next t →
    (∀ len rnd, decode s.pend.cmd = .ok (.keysched len rnd) → engineCompletes s = false) →
    ∃ k' p', step { s with key := k, pend := { s.pend with key := p } } =
      .next { t with key := k', pend := { t.pend with key := p' } }

/-- R84 under its fairness (the schedule, log 2): a command in flight completes, at the latest one step after the schedule is used up, unless a reset
intervenes (or the host leaves the window, where the model stops, log 5), and it is the command that was accepted. -/
def Obligations.AcceptedCommandCompletes : Prop :=
  ∀ s : State, s.busy = true → s.resetAsserted = false →
    (∀ a ∈ s.schedule, a = .host ∨ a = .engine) → (∀ op ∈ s.host, inWindow op = true ∧ isSoftReset op = false) →
    ∃ n u t, n ≤ s.schedule.length ∧ run n s = .next u ∧ engineCompletes u = true ∧ u.pend = s.pend ∧
      u.rk = s.rk ∧ u.nr = s.nr ∧ u.kv = s.kv ∧ u.degen = s.degen ∧ run (n + 1) s = .next t ∧ t.busy = false ∧ t.done = true

/-- R217: the WAIT loop ends, whatever the schedule, a reset in the loop included. That WAIT is one read of STATUS a step is log 17, the
schedule log 2. -/
def Obligations.WaitLoopEnds : Prop :=
  ∀ (s : State) (rest : List HostOp), s.host = .wait :: rest →
    ∃ n t, n ≤ s.schedule.length + 2 ∧ run n s = .next t ∧ t.host = rest

/-- R8, R216: every finite latency occurs: for any number of host steps in between there is an interleaving in which the command is in flight
for exactly so long. -/
def Obligations.EveryLatencyOccurs : Prop :=
  ∀ (s : State) (n : Nat), s.busy = true → s.resetAsserted = false → s.host = [] →
    s.schedule = List.replicate n .host ++ [.engine] →
    (∀ m, m ≤ n → ∃ u, run m s = .next u ∧ u.busy = true ∧ u.pend = s.pend) ∧
    (∃ t, run (n + 1) s = .next t ∧ t.busy = false ∧ t.done = true)

/-- R191, R211 and program P5 of 95_test_vectors.md: a CMD write right after another may be dropped or accepted, as the completion falls. -/
def Obligations.SecondCmdWriteHasTwoOutcomes : Prop :=
  ∀ (s : State) (w : Word) (ops : List HostOp) (rest : List Turn), s.busy = true → s.resetAsserted = false →
    s.host = wr 0x04 w :: ops →
    (s.schedule = .host :: rest → step s = .next { s with ovr := true, host := ops, schedule := rest }) ∧
    (s.schedule = .engine :: .host :: rest → ∃ t, run 2 s = .next t ∧ t.busy = true ∧ t.done = false ∧
      t.pend = ⟨w, s.key, s.din, s.fkey⟩ ∧ t.ovr = s.ovr ∧ t.host = ops ∧ t.schedule = rest)
end

