-- ==== Sys2Proof/Laws/Cipher.lean ====
section
/-! SUPPORT. The small lemmas of the bit primitives, of the key schedule and of the Feistel network. -/

namespace Sys2Proof.Machine

/-- Output DES bit j + 1 of a permutation is input DES bit `T[j + 1]` (R11). -/
theorem desBit_perm {n : Nat} (m : Nat) (table : List Nat) (v : BitVec n) (hm : table.length = m) {j : Nat} (hj : j < m) :
    desBit (perm m table v) (j + 1) = desBit v (table.getD j 0) := by
  subst hm
  have h1 : table.length - (j + 1) = table.length - 1 - j := by omega
  have h2 : (BitVec.ofBoolListBE (table.map (desBit v))).getMsbD j = desBit v (table.getD j 0) := by
    rw [BitVec.getMsbD_ofBoolListBE]
    simp [List.getD_eq_getElem?_getD, hj]
  rw [← h2]
  simp [desBit, perm, BitVec.getMsbD, h1, hj]

/-- Bit `i` of a permutation of length m. -/
theorem getLsbD_perm {n : Nat} (m : Nat) (table : List Nat) (v : BitVec n) (hm : table.length = m) {i : Nat} (hi : i < m) :
    (perm m table v).getLsbD i = desBit v (table.getD (m - 1 - i) 0) := by
  have h := desBit_perm m table v hm (j := m - 1 - i) (by omega)
  have h1 : m - (m - 1 - i + 1) = i := by omega
  rw [← h, desBit, h1]

theorem tablePC1_length : tablePC1.length = 56 := rfl
theorem tablePC2_length : tablePC2.length = 48 := rfl
theorem tableROT_length : tableROT.length = 16 := rfl
theorem tableIP_length : tableIP.length = 64 := rfl
theorem tableFP_length : tableFP.length = 64 := rfl
theorem tableE_length : tableE.length = 48 := rfl
theorem tableP_length : tableP.length = 32 := rfl

@[simp] theorem roundKeysFrom_length (rots : List Nat) (h : KeyHalves) : (roundKeysFrom rots h).length = rots.length := by
  induction rots generalizing h with
  | nil => rfl
  | cons s rest ih => simp [roundKeysFrom, ih]

/-- A schedule of n rounds, n at most 16, has n keys. -/
theorem keySchedule_length (key : Block) {n : Nat} (h : n ≤ 16) : (keySchedule key n).length = n := by
  simp [keySchedule, tableROT_length, h]

@[simp] theorem rotateHalves_c (s : Nat) (h : KeyHalves) : (rotateHalves s h).c = rotl28 h.c s := rfl
@[simp] theorem rotateHalves_d (s : Nat) (h : KeyHalves) : (rotateHalves s h).d = rotl28 h.d s := rfl
@[simp] theorem feistelRound_l (h : Halves) (k : RoundKey) : (feistelRound h k).l = h.r := rfl
@[simp] theorem feistelRound_r (h : Halves) (k : RoundKey) : (feistelRound h k).r = h.l ^^^ roundF h.r k := rfl

/-- A round run on the swapped result of the round with the same key gives back the swapped halves. -/
theorem feistelRound_undo (h : Halves) (k : RoundKey) :
    feistelRound ⟨(feistelRound h k).r, (feistelRound h k).l⟩ k = ⟨h.r, h.l⟩ := by
  simp [feistelRound]

end Sys2Proof.Machine
end

