-- ==== Sys2Proof/Laws/Encoding.lean ====
section
/-! SUPPORT. A command word as the six fields of 30_encoding.md R71: its decomposition, the field readers on it, and the opcode map's masks on
it. The two words of a wide register put together again (20_memory.md R50). -/

namespace Sys2Proof

/-- Equal concatenations have equal parts. -/
theorem append_inj {m n : Nat} {a c : BitVec m} {b d : BitVec n} : a ++ b = c ++ d ↔ a = c ∧ b = d := by
  constructor
  · intro h
    have hb : b = d := by
      have := congrArg (fun x => x.extractLsb' 0 n) h
      simpa only [BitVec.extractLsb'_append_eq_right] using this
    subst hb
    exact ⟨(BitVec.append_left_inj b).mp h, rfl⟩
  · rintro ⟨rfl, rfl⟩
    rfl

/-- The six fields of the format CMD put together, reserved bits included. -/
def fields (res2 : BitVec 12) (idx : BitVec 4) (res1 : BitVec 3) (rnd : BitVec 5) (len opc : BitVec 4) : Word :=
  res2 ++ idx ++ res1 ++ rnd ++ len ++ opc

/-- Neighbouring parts of a bit vector, put together. -/
theorem extract_join {n : Nat} (v : BitVec n) (a m k : Nat) :
    v.extractLsb' (a + m) k ++ v.extractLsb' a m = v.extractLsb' a (k + m) :=
  BitVec.extractLsb'_append_extractLsb'_eq_extractLsb' rfl

theorem extract_all {n : Nat} (v : BitVec n) : v.extractLsb' 0 n = v := BitVec.extractLsb'_eq_self

/-- Every word is its six fields. -/
theorem word_eq_fields (w : Word) :
    w = fields (w.extractLsb' 20 12) (w.extractLsb' 16 4) (w.extractLsb' 13 3) (w.extractLsb' 8 5) (w.extractLsb' 4 4)
      (w.extractLsb' 0 4) := by
  unfold fields
  rw [extract_join w 16 4 12, extract_join w 13 3 16, extract_join w 8 5 19, extract_join w 4 4 24, extract_join w 0 4 28]
  exact (extract_all w).symm

section
variable (res2 : BitVec 12) (idx : BitVec 4) (res1 : BitVec 3) (rnd : BitVec 5) (len opc : BitVec 4)

theorem fields_inj {res2' : BitVec 12} {idx' : BitVec 4} {res1' : BitVec 3} {rnd' : BitVec 5} {len' opc' : BitVec 4} :
    fields res2 idx res1 rnd len opc = fields res2' idx' res1' rnd' len' opc' ↔
      res2 = res2' ∧ idx = idx' ∧ res1 = res1' ∧ rnd = rnd' ∧ len = len' ∧ opc = opc' := by
  unfold fields
  rw [append_inj, append_inj, append_inj, append_inj, append_inj]
  tauto

/-- Each field of a word is the bits R71 gives it. -/
theorem fields_extract :
    (fields res2 idx res1 rnd len opc).extractLsb' 20 12 = res2 ∧ (fields res2 idx res1 rnd len opc).extractLsb' 16 4 = idx ∧
    (fields res2 idx res1 rnd len opc).extractLsb' 13 3 = res1 ∧ (fields res2 idx res1 rnd len opc).extractLsb' 8 5 = rnd ∧
    (fields res2 idx res1 rnd len opc).extractLsb' 4 4 = len ∧ (fields res2 idx res1 rnd len opc).extractLsb' 0 4 = opc := by
  have h := (fields_inj _ _ _ _ _ _).mp (word_eq_fields (fields res2 idx res1 rnd len opc))
  exact ⟨h.1.symm, h.2.1.symm, h.2.2.1.symm, h.2.2.2.1.symm, h.2.2.2.2.1.symm, h.2.2.2.2.2.symm⟩

@[simp] theorem fieldOpc_fields : fieldOpc (fields res2 idx res1 rnd len opc) = opc.toNat := by
  rw [fieldOpc, (fields_extract res2 idx res1 rnd len opc).2.2.2.2.2]

@[simp] theorem fieldLen_fields : fieldLen (fields res2 idx res1 rnd len opc) = len.toNat := by
  rw [fieldLen, (fields_extract res2 idx res1 rnd len opc).2.2.2.2.1]

@[simp] theorem fieldRnd_fields : fieldRnd (fields res2 idx res1 rnd len opc) = rnd.toNat := by
  rw [fieldRnd, (fields_extract res2 idx res1 rnd len opc).2.2.2.1]

@[simp] theorem fieldIdx_fields : fieldIdx (fields res2 idx res1 rnd len opc) = idx.toNat := by
  rw [fieldIdx, (fields_extract res2 idx res1 rnd len opc).2.1]

/-- Masking works field by field. -/
theorem fields_and (res2' : BitVec 12) (idx' : BitVec 4) (res1' : BitVec 3) (rnd' : BitVec 5) (len' opc' : BitVec 4) :
    fields res2 idx res1 rnd len opc &&& fields res2' idx' res1' rnd' len' opc' =
      fields (res2 &&& res2') (idx &&& idx') (res1 &&& res1') (rnd &&& rnd') (len &&& len') (opc &&& opc') := by
  unfold fields
  rw [BitVec.and_append, BitVec.and_append, BitVec.and_append, BitVec.and_append, BitVec.and_append]

/-- The rows of R78, field by field: the opcode, and zero in every reserved bit and every field the opcode does not use. -/
theorem selects_fields :
    (rowNop.selects (fields res2 idx res1 rnd len opc) = true ↔
      res2 = 0 ∧ idx = 0 ∧ res1 = 0 ∧ rnd = 0 ∧ len = 0 ∧ opc = 0) ∧
    (rowKeysched.selects (fields res2 idx res1 rnd len opc) = true ↔ res2 = 0 ∧ idx = 0 ∧ res1 = 0 ∧ opc = 1) ∧
    (rowEncrypt.selects (fields res2 idx res1 rnd len opc) = true ↔ res2 = 0 ∧ idx = 0 ∧ res1 = 0 ∧ rnd = 0 ∧ opc = 2) ∧
    (rowDecrypt.selects (fields res2 idx res1 rnd len opc) = true ↔ res2 = 0 ∧ idx = 0 ∧ res1 = 0 ∧ rnd = 0 ∧ opc = 3) ∧
    (rowForcekey.selects (fields res2 idx res1 rnd len opc) = true ↔ res2 = 0 ∧ idx = 0 ∧ res1 = 0 ∧ len = 0 ∧ opc = 4) ∧
    (rowRkread.selects (fields res2 idx res1 rnd len opc) = true ↔ res2 = 0 ∧ res1 = 0 ∧ rnd = 0 ∧ len = 0 ∧ opc = 5) := by
  have mask : ∀ {n : Nat} (x : BitVec n), x &&& BitVec.allOnes n = x := fun x => BitVec.and_allOnes
  have key : ∀ (m v : Word), ((fields res2 idx res1 rnd len opc &&& m) == v) = true ↔
      res2 &&& m.extractLsb' 20 12 = v.extractLsb' 20 12 ∧ idx &&& m.extractLsb' 16 4 = v.extractLsb' 16 4 ∧
      res1 &&& m.extractLsb' 13 3 = v.extractLsb' 13 3 ∧ rnd &&& m.extractLsb' 8 5 = v.extractLsb' 8 5 ∧
      len &&& m.extractLsb' 4 4 = v.extractLsb' 4 4 ∧ opc &&& m.extractLsb' 0 4 = v.extractLsb' 0 4 := by
    intro m v
    conv_lhs => rw [word_eq_fields m, word_eq_fields v, fields_and, beq_iff_eq, fields_inj]
  have m12 : ∀ x : BitVec 12, x &&& 0xFFF#12 = x := mask
  have m5 : ∀ x : BitVec 5, x &&& 0x1F#5 = x := mask
  have m4 : ∀ x : BitVec 4, x &&& 0xF#4 = x := mask
  have m3 : ∀ x : BitVec 3, x &&& 0x7#3 = x := mask
  refine ⟨?_, ?_, ?_, ?_, ?_, ?_⟩ <;> refine (key _ _).trans ?_ <;>
    simp [rowNop, rowKeysched, rowEncrypt, rowDecrypt, rowForcekey, rowRkread, m12, m5, m4, m3]

end

end Sys2Proof

namespace Sys2Proof.Machine

/-- The two words of a 64-bit register make it up again. -/
theorem hiWord_append_loWord (v : Block) : hiWord v ++ loWord v = v :=
  (extract_join v 0 32 32).trans (extract_all v)

@[simp] theorem hiWord_append (a b : Word) : hiWord (a ++ b) = a := BitVec.extractLsb'_append_eq_left

@[simp] theorem loWord_append (a b : Word) : loWord (a ++ b) = b := BitVec.extractLsb'_append_eq_right

/-- Writing both words, in this order, sets the register, whatever it held (R213). -/
theorem setLo_setHi (v k : Block) : setLoWord (setHiWord v (hiWord k)) (loWord k) = k := by
  rw [setLoWord, setHiWord, hiWord_append, hiWord_append_loWord]

/-- The same for FKEY. -/
theorem setFkey_both (v k : RoundKey) : setFkeyLo (setFkeyHi v (fkeyHiWord k)) (fkeyLoWord k) = k := by
  have hz : ∀ x : BitVec 16, (x.setWidth 32).extractLsb' 0 16 = x := by
    intro x
    apply BitVec.eq_of_toNat_eq
    have := x.isLt
    simp
    omega
  have h1 : ∀ (a : BitVec 16) (b : BitVec 32), (a ++ b).extractLsb' 32 16 = a := fun _ _ => BitVec.extractLsb'_append_eq_left
  rw [setFkeyLo, setFkeyHi, h1]
  exact (congrArg (· ++ fkeyLoWord k) (hz _)).trans ((extract_join k 0 32 16).trans (extract_all k))

end Sys2Proof.Machine
end

