-- ==== Sys2Proof/Laws/State.lean ====
section
/-! SUPPORT. What each named update of State does to each field, one lemma a field, true by rfl: later proofs cite these and never
unfold an update. -/

namespace Sys2Proof.Machine

@[simp] theorem complete_key (code : ResultCode) (s : State) : (complete code s).key = s.key := rfl
@[simp] theorem complete_din (code : ResultCode) (s : State) : (complete code s).din = s.din := rfl
@[simp] theorem complete_dout (code : ResultCode) (s : State) : (complete code s).dout = s.dout := rfl
@[simp] theorem complete_fkey (code : ResultCode) (s : State) : (complete code s).fkey = s.fkey := rfl
@[simp] theorem complete_rk (code : ResultCode) (s : State) : (complete code s).rk = s.rk := rfl
@[simp] theorem complete_nr (code : ResultCode) (s : State) : (complete code s).nr = s.nr := rfl
@[simp] theorem complete_kv (code : ResultCode) (s : State) : (complete code s).kv = s.kv := rfl
@[simp] theorem complete_degen (code : ResultCode) (s : State) : (complete code s).degen = s.degen := rfl
@[simp] theorem complete_busy (code : ResultCode) (s : State) : (complete code s).busy = false := rfl
@[simp] theorem complete_done (code : ResultCode) (s : State) : (complete code s).done = true := rfl
@[simp] theorem complete_ovr (code : ResultCode) (s : State) : (complete code s).ovr = s.ovr := rfl
@[simp] theorem complete_errcode (code : ResultCode) (s : State) : (complete code s).errcode = code := rfl
@[simp] theorem complete_pend (code : ResultCode) (s : State) : (complete code s).pend = s.pend := rfl
@[simp] theorem complete_resetAsserted (code : ResultCode) (s : State) : (complete code s).resetAsserted = s.resetAsserted := rfl
@[simp] theorem complete_host (code : ResultCode) (s : State) : (complete code s).host = s.host := rfl
@[simp] theorem complete_schedule (code : ResultCode) (s : State) : (complete code s).schedule = s.schedule := rfl
@[simp] theorem complete_observed (code : ResultCode) (s : State) : (complete code s).observed = s.observed := rfl
@[simp] theorem complete_freeIndex (code : ResultCode) (s : State) : (complete code s).freeIndex = s.freeIndex := rfl

@[simp] theorem loadSchedule_key (keys : List RoundKey) (forced : Bool) (s : State) : (loadSchedule keys forced s).key = s.key := rfl
@[simp] theorem loadSchedule_din (keys : List RoundKey) (forced : Bool) (s : State) : (loadSchedule keys forced s).din = s.din := rfl
@[simp] theorem loadSchedule_dout (keys : List RoundKey) (forced : Bool) (s : State) : (loadSchedule keys forced s).dout = s.dout := rfl
@[simp] theorem loadSchedule_fkey (keys : List RoundKey) (forced : Bool) (s : State) : (loadSchedule keys forced s).fkey = s.fkey := rfl
@[simp] theorem loadSchedule_rk (keys : List RoundKey) (forced : Bool) (s : State) : (loadSchedule keys forced s).rk = slotsOf keys := rfl
@[simp] theorem loadSchedule_nr (keys : List RoundKey) (forced : Bool) (s : State) : (loadSchedule keys forced s).nr = BitVec.ofNat 5 keys.length := rfl
@[simp] theorem loadSchedule_kv (keys : List RoundKey) (forced : Bool) (s : State) : (loadSchedule keys forced s).kv = true := rfl
@[simp] theorem loadSchedule_degen (keys : List RoundKey) (forced : Bool) (s : State) : (loadSchedule keys forced s).degen = forced := rfl
@[simp] theorem loadSchedule_busy (keys : List RoundKey) (forced : Bool) (s : State) : (loadSchedule keys forced s).busy = s.busy := rfl
@[simp] theorem loadSchedule_done (keys : List RoundKey) (forced : Bool) (s : State) : (loadSchedule keys forced s).done = s.done := rfl
@[simp] theorem loadSchedule_ovr (keys : List RoundKey) (forced : Bool) (s : State) : (loadSchedule keys forced s).ovr = s.ovr := rfl
@[simp] theorem loadSchedule_errcode (keys : List RoundKey) (forced : Bool) (s : State) : (loadSchedule keys forced s).errcode = s.errcode := rfl
@[simp] theorem loadSchedule_pend (keys : List RoundKey) (forced : Bool) (s : State) : (loadSchedule keys forced s).pend = s.pend := rfl
@[simp] theorem loadSchedule_resetAsserted (keys : List RoundKey) (forced : Bool) (s : State) : (loadSchedule keys forced s).resetAsserted = s.resetAsserted := rfl
@[simp] theorem loadSchedule_host (keys : List RoundKey) (forced : Bool) (s : State) : (loadSchedule keys forced s).host = s.host := rfl
@[simp] theorem loadSchedule_schedule (keys : List RoundKey) (forced : Bool) (s : State) : (loadSchedule keys forced s).schedule = s.schedule := rfl
@[simp] theorem loadSchedule_observed (keys : List RoundKey) (forced : Bool) (s : State) : (loadSchedule keys forced s).observed = s.observed := rfl
@[simp] theorem loadSchedule_freeIndex (keys : List RoundKey) (forced : Bool) (s : State) : (loadSchedule keys forced s).freeIndex = s.freeIndex := rfl

@[simp] theorem setDout_key (v : Block) (s : State) : (setDout v s).key = s.key := rfl
@[simp] theorem setDout_din (v : Block) (s : State) : (setDout v s).din = s.din := rfl
@[simp] theorem setDout_dout (v : Block) (s : State) : (setDout v s).dout = v := rfl
@[simp] theorem setDout_fkey (v : Block) (s : State) : (setDout v s).fkey = s.fkey := rfl
@[simp] theorem setDout_rk (v : Block) (s : State) : (setDout v s).rk = s.rk := rfl
@[simp] theorem setDout_nr (v : Block) (s : State) : (setDout v s).nr = s.nr := rfl
@[simp] theorem setDout_kv (v : Block) (s : State) : (setDout v s).kv = s.kv := rfl
@[simp] theorem setDout_degen (v : Block) (s : State) : (setDout v s).degen = s.degen := rfl
@[simp] theorem setDout_busy (v : Block) (s : State) : (setDout v s).busy = s.busy := rfl
@[simp] theorem setDout_done (v : Block) (s : State) : (setDout v s).done = s.done := rfl
@[simp] theorem setDout_ovr (v : Block) (s : State) : (setDout v s).ovr = s.ovr := rfl
@[simp] theorem setDout_errcode (v : Block) (s : State) : (setDout v s).errcode = s.errcode := rfl
@[simp] theorem setDout_pend (v : Block) (s : State) : (setDout v s).pend = s.pend := rfl
@[simp] theorem setDout_resetAsserted (v : Block) (s : State) : (setDout v s).resetAsserted = s.resetAsserted := rfl
@[simp] theorem setDout_host (v : Block) (s : State) : (setDout v s).host = s.host := rfl
@[simp] theorem setDout_schedule (v : Block) (s : State) : (setDout v s).schedule = s.schedule := rfl
@[simp] theorem setDout_observed (v : Block) (s : State) : (setDout v s).observed = s.observed := rfl
@[simp] theorem setDout_freeIndex (v : Block) (s : State) : (setDout v s).freeIndex = s.freeIndex := rfl

@[simp] theorem resetEngine_key (s : State) : (resetEngine s).key = 0 := rfl
@[simp] theorem resetEngine_din (s : State) : (resetEngine s).din = 0 := rfl
@[simp] theorem resetEngine_dout (s : State) : (resetEngine s).dout = 0 := rfl
@[simp] theorem resetEngine_fkey (s : State) : (resetEngine s).fkey = 0 := rfl
@[simp] theorem resetEngine_rk (s : State) : (resetEngine s).rk = Vector.replicate 16 0 := rfl
@[simp] theorem resetEngine_nr (s : State) : (resetEngine s).nr = 0 := rfl
@[simp] theorem resetEngine_kv (s : State) : (resetEngine s).kv = false := rfl
@[simp] theorem resetEngine_degen (s : State) : (resetEngine s).degen = false := rfl
@[simp] theorem resetEngine_busy (s : State) : (resetEngine s).busy = false := rfl
@[simp] theorem resetEngine_done (s : State) : (resetEngine s).done = false := rfl
@[simp] theorem resetEngine_ovr (s : State) : (resetEngine s).ovr = false := rfl
@[simp] theorem resetEngine_errcode (s : State) : (resetEngine s).errcode = .ok := rfl
@[simp] theorem resetEngine_pend (s : State) : (resetEngine s).pend = freePend s.freeIndex := rfl
@[simp] theorem resetEngine_resetAsserted (s : State) : (resetEngine s).resetAsserted = s.resetAsserted := rfl
@[simp] theorem resetEngine_host (s : State) : (resetEngine s).host = s.host := rfl
@[simp] theorem resetEngine_schedule (s : State) : (resetEngine s).schedule = s.schedule := rfl
@[simp] theorem resetEngine_observed (s : State) : (resetEngine s).observed = s.observed := rfl
@[simp] theorem resetEngine_freeIndex (s : State) : (resetEngine s).freeIndex = s.freeIndex + 4 := rfl

@[simp] theorem assertReset_key (s : State) : (assertReset s).key = 0 := rfl
@[simp] theorem assertReset_din (s : State) : (assertReset s).din = 0 := rfl
@[simp] theorem assertReset_dout (s : State) : (assertReset s).dout = 0 := rfl
@[simp] theorem assertReset_fkey (s : State) : (assertReset s).fkey = 0 := rfl
@[simp] theorem assertReset_rk (s : State) : (assertReset s).rk = Vector.replicate 16 0 := rfl
@[simp] theorem assertReset_nr (s : State) : (assertReset s).nr = 0 := rfl
@[simp] theorem assertReset_kv (s : State) : (assertReset s).kv = false := rfl
@[simp] theorem assertReset_degen (s : State) : (assertReset s).degen = false := rfl
@[simp] theorem assertReset_busy (s : State) : (assertReset s).busy = false := rfl
@[simp] theorem assertReset_done (s : State) : (assertReset s).done = false := rfl
@[simp] theorem assertReset_ovr (s : State) : (assertReset s).ovr = false := rfl
@[simp] theorem assertReset_errcode (s : State) : (assertReset s).errcode = .ok := rfl
@[simp] theorem assertReset_pend (s : State) : (assertReset s).pend = freePend s.freeIndex := rfl
@[simp] theorem assertReset_resetAsserted (s : State) : (assertReset s).resetAsserted = true := rfl
@[simp] theorem assertReset_host (s : State) : (assertReset s).host = s.host := rfl
@[simp] theorem assertReset_schedule (s : State) : (assertReset s).schedule = s.schedule := rfl
@[simp] theorem assertReset_observed (s : State) : (assertReset s).observed = s.observed := rfl
@[simp] theorem assertReset_freeIndex (s : State) : (assertReset s).freeIndex = s.freeIndex + 4 := rfl

@[simp] theorem releaseReset_key (s : State) : (releaseReset s).key = 0 := rfl
@[simp] theorem releaseReset_din (s : State) : (releaseReset s).din = 0 := rfl
@[simp] theorem releaseReset_dout (s : State) : (releaseReset s).dout = 0 := rfl
@[simp] theorem releaseReset_fkey (s : State) : (releaseReset s).fkey = 0 := rfl
@[simp] theorem releaseReset_rk (s : State) : (releaseReset s).rk = Vector.replicate 16 0 := rfl
@[simp] theorem releaseReset_nr (s : State) : (releaseReset s).nr = 0 := rfl
@[simp] theorem releaseReset_kv (s : State) : (releaseReset s).kv = false := rfl
@[simp] theorem releaseReset_degen (s : State) : (releaseReset s).degen = false := rfl
@[simp] theorem releaseReset_busy (s : State) : (releaseReset s).busy = false := rfl
@[simp] theorem releaseReset_done (s : State) : (releaseReset s).done = false := rfl
@[simp] theorem releaseReset_ovr (s : State) : (releaseReset s).ovr = false := rfl
@[simp] theorem releaseReset_errcode (s : State) : (releaseReset s).errcode = .ok := rfl
@[simp] theorem releaseReset_pend (s : State) : (releaseReset s).pend = freePend s.freeIndex := rfl
@[simp] theorem releaseReset_resetAsserted (s : State) : (releaseReset s).resetAsserted = false := rfl
@[simp] theorem releaseReset_host (s : State) : (releaseReset s).host = s.host := rfl
@[simp] theorem releaseReset_schedule (s : State) : (releaseReset s).schedule = s.schedule := rfl
@[simp] theorem releaseReset_observed (s : State) : (releaseReset s).observed = s.observed := rfl
@[simp] theorem releaseReset_freeIndex (s : State) : (releaseReset s).freeIndex = s.freeIndex + 4 := rfl

@[simp] theorem acceptCommand_key (w : Word) (s : State) : (acceptCommand w s).key = s.key := rfl
@[simp] theorem acceptCommand_din (w : Word) (s : State) : (acceptCommand w s).din = s.din := rfl
@[simp] theorem acceptCommand_dout (w : Word) (s : State) : (acceptCommand w s).dout = s.dout := rfl
@[simp] theorem acceptCommand_fkey (w : Word) (s : State) : (acceptCommand w s).fkey = s.fkey := rfl
@[simp] theorem acceptCommand_rk (w : Word) (s : State) : (acceptCommand w s).rk = s.rk := rfl
@[simp] theorem acceptCommand_nr (w : Word) (s : State) : (acceptCommand w s).nr = s.nr := rfl
@[simp] theorem acceptCommand_kv (w : Word) (s : State) : (acceptCommand w s).kv = s.kv := rfl
@[simp] theorem acceptCommand_degen (w : Word) (s : State) : (acceptCommand w s).degen = s.degen := rfl
@[simp] theorem acceptCommand_busy (w : Word) (s : State) : (acceptCommand w s).busy = true := rfl
@[simp] theorem acceptCommand_done (w : Word) (s : State) : (acceptCommand w s).done = false := rfl
@[simp] theorem acceptCommand_ovr (w : Word) (s : State) : (acceptCommand w s).ovr = s.ovr := rfl
@[simp] theorem acceptCommand_errcode (w : Word) (s : State) : (acceptCommand w s).errcode = .ok := rfl
@[simp] theorem acceptCommand_pend (w : Word) (s : State) : (acceptCommand w s).pend = snapshot w s := rfl
@[simp] theorem acceptCommand_resetAsserted (w : Word) (s : State) : (acceptCommand w s).resetAsserted = s.resetAsserted := rfl
@[simp] theorem acceptCommand_host (w : Word) (s : State) : (acceptCommand w s).host = s.host := rfl
@[simp] theorem acceptCommand_schedule (w : Word) (s : State) : (acceptCommand w s).schedule = s.schedule := rfl
@[simp] theorem acceptCommand_observed (w : Word) (s : State) : (acceptCommand w s).observed = s.observed := rfl
@[simp] theorem acceptCommand_freeIndex (w : Word) (s : State) : (acceptCommand w s).freeIndex = s.freeIndex := rfl

@[simp] theorem observe_key (r : BusResponse) (s : State) : (observe r s).key = s.key := rfl
@[simp] theorem observe_din (r : BusResponse) (s : State) : (observe r s).din = s.din := rfl
@[simp] theorem observe_dout (r : BusResponse) (s : State) : (observe r s).dout = s.dout := rfl
@[simp] theorem observe_fkey (r : BusResponse) (s : State) : (observe r s).fkey = s.fkey := rfl
@[simp] theorem observe_rk (r : BusResponse) (s : State) : (observe r s).rk = s.rk := rfl
@[simp] theorem observe_nr (r : BusResponse) (s : State) : (observe r s).nr = s.nr := rfl
@[simp] theorem observe_kv (r : BusResponse) (s : State) : (observe r s).kv = s.kv := rfl
@[simp] theorem observe_degen (r : BusResponse) (s : State) : (observe r s).degen = s.degen := rfl
@[simp] theorem observe_busy (r : BusResponse) (s : State) : (observe r s).busy = s.busy := rfl
@[simp] theorem observe_done (r : BusResponse) (s : State) : (observe r s).done = s.done := rfl
@[simp] theorem observe_ovr (r : BusResponse) (s : State) : (observe r s).ovr = s.ovr := rfl
@[simp] theorem observe_errcode (r : BusResponse) (s : State) : (observe r s).errcode = s.errcode := rfl
@[simp] theorem observe_pend (r : BusResponse) (s : State) : (observe r s).pend = s.pend := rfl
@[simp] theorem observe_resetAsserted (r : BusResponse) (s : State) : (observe r s).resetAsserted = s.resetAsserted := rfl
@[simp] theorem observe_host (r : BusResponse) (s : State) : (observe r s).host = s.host := rfl
@[simp] theorem observe_schedule (r : BusResponse) (s : State) : (observe r s).schedule = s.schedule := rfl
@[simp] theorem observe_observed (r : BusResponse) (s : State) : (observe r s).observed = s.observed ++ [r] := rfl
@[simp] theorem observe_freeIndex (r : BusResponse) (s : State) : (observe r s).freeIndex = s.freeIndex := rfl

end Sys2Proof.Machine
end

