-- ==== Sys2Proof/Laws/Ops.lean ====
section
/-! SUPPORT. One lemma for each shared operation that says everything it can do; the inversion lemmas of a command, of a completion and of
a step. Proofs cite these instead of unfolding the operations. -/

namespace Sys2Proof.Machine

open Sys2Proof.Safety

/-! ## Ending a command -/

@[simp] theorem succeed_eq (s : State) : succeed s = .next (complete .ok s) := rfl

@[simp] theorem fail_eq (code : ResultCode) (s : State) : fail code s = .next (complete code s) := rfl

theorem next_inj {s t : State} : (Host.Outcome.next s : Host.Outcome State Fault Refusal) = .next t ↔ s = t := by simp

/-! ## The round count -/

theorem rounds_eq_some {rnd n : Nat} : rounds rnd = some n ↔ (rnd = 0 ∧ n = 16) ∨ (1 ≤ rnd ∧ rnd ≤ 16 ∧ n = rnd) := by
  unfold rounds
  split
  · simp_all; omega
  · split <;> simp <;> omega

theorem rounds_eq_none {rnd : Nat} : rounds rnd = none ↔ 16 < rnd := by
  unfold rounds
  split
  · simp_all
  · split <;> simp <;> omega

theorem rounds_bounds {rnd n : Nat} (h : rounds rnd = some n) : 1 ≤ n ∧ n ≤ 16 := by
  obtain ⟨_, rfl⟩ | ⟨h1, h2, rfl⟩ := rounds_eq_some.mp h
  · omega
  · exact ⟨h1, h2⟩

/-! ## The round-key file -/

theorem slotsOf_getD (keys : List RoundKey) {i : Nat} (h : i < 16) : (slotsOf keys).toList.getD i 0 = keys.getD i 0 := by
  simp [slotsOf, List.getD_eq_getElem?_getD, h]

theorem slotsOf_take (keys : List RoundKey) (h : keys.length ≤ 16) : (slotsOf keys).toList.take keys.length = keys := by
  apply List.ext_getElem
  · simpa using h
  · intro i h1 h2
    simp [slotsOf, List.getD_eq_getElem?_getD, h2]

theorem ofNat5_toNat {n : Nat} (h : n ≤ 16) : (BitVec.ofNat 5 n).toNat = n := by
  simp; omega

/-- A loaded schedule holds the keys it was loaded with. -/
theorem scheduleKeys_loadSchedule (keys : List RoundKey) (forced : Bool) (s : State) (h : keys.length ≤ 16) :
    scheduleKeys (loadSchedule keys forced s) = keys := by
  simp only [scheduleKeys, loadSchedule_rk, loadSchedule_nr, ofNat5_toNat h, slotsOf_take keys h]

theorem rkSlot_loadSchedule (keys : List RoundKey) (forced : Bool) (s : State) {i : Nat} (h : i < 16) :
    rkSlot (loadSchedule keys forced s) i = keys.getD i 0 := by
  simp only [rkSlot, loadSchedule_rk, slotsOf_getD keys h]

/-- The loaded keys are the first NR slots, in order. -/
theorem scheduleKeys_eq_slots (s : State) (h : s.nr.toNat ≤ 16) :
    scheduleKeys s = (List.range s.nr.toNat).map (rkSlot s) := by
  apply List.ext_getElem
  · simpa [scheduleKeys] using h
  · intro i h1 h2
    have hi : i < 16 := by simp at h2; omega
    simp [scheduleKeys, rkSlot, List.getD_eq_getElem?_getD, hi]

/-- The schedule fields decide the loaded keys. -/
theorem scheduleKeys_congr {s t : State} (hr : t.rk = s.rk) (hn : t.nr = s.nr) : scheduleKeys t = scheduleKeys s := by
  simp [scheduleKeys, hr, hn]

theorem rkSlot_congr {s t : State} (hr : t.rk = s.rk) (i : Nat) : rkSlot t i = rkSlot s i := by
  simp [rkSlot, hr]

/-- A cleared file reads 0 in every slot. -/
theorem rkSlot_cleared {s : State} (h : s.rk = Vector.replicate 16 0) (i : Nat) : rkSlot s i = 0 := by
  simp only [rkSlot, h, Vector.toList_replicate, List.getD_eq_getElem?_getD, List.getElem?_replicate]
  split <;> rfl

/-! ## The reset state -/

theorem engineReset_resetEngine (s : State) : EngineReset (resetEngine s) :=
  ⟨rfl, rfl, rfl, rfl, fun i _ => rkSlot_cleared (resetEngine_rk s) i, rfl, rfl, rfl, rfl, rfl, rfl, rfl⟩

theorem engineReset_assertReset (s : State) : EngineReset (assertReset s) :=
  ⟨rfl, rfl, rfl, rfl, fun i _ => rkSlot_cleared (assertReset_rk s) i, rfl, rfl, rfl, rfl, rfl, rfl, rfl⟩

theorem engineReset_releaseReset (s : State) : EngineReset (releaseReset s) :=
  ⟨rfl, rfl, rfl, rfl, fun i _ => rkSlot_cleared (releaseReset_rk s) i, rfl, rfl, rfl, rfl, rfl, rfl, rfl⟩

/-! ## A command, whole -/

/-- A command always completes: it ends with a code and either wrote nothing, or with OK loaded a schedule of 1 to 16 keys (all equal when
forced), or with OK wrote DOUT. -/
theorem exec_cases (i : Instr) (s : State) :
    ∃ code u, exec i s = .next (complete code u) ∧
      (u = s ∨
        (code = .ok ∧ (∃ len rnd, i = .keysched len rnd) ∧
          ∃ n, 1 ≤ n ∧ n ≤ 16 ∧ u = loadSchedule (keySchedule s.pend.key n) false s) ∨
        (code = .ok ∧ (∃ rnd, i = .forcekey rnd) ∧
          ∃ n, 1 ≤ n ∧ n ≤ 16 ∧ u = loadSchedule (List.replicate n s.pend.fkey) true s) ∨
        (code = .ok ∧ ((∃ len, i = .encrypt len) ∨ (∃ len, i = .decrypt len) ∨ (∃ idx, i = .rkread idx)) ∧
          ∃ v, u = setDout v s)) := by
  cases i with
  | nop => exact ⟨.ok, s, rfl, .inl rfl⟩
  | keysched len rnd =>
    simp only [exec, execKeysched]
    split
    · exact ⟨_, s, rfl, .inl rfl⟩
    · split
      · exact ⟨_, s, rfl, .inl rfl⟩
      · next n h =>
        exact ⟨_, _, rfl, .inr (.inl ⟨rfl, ⟨len, rnd, rfl⟩, n, (rounds_bounds h).1, (rounds_bounds h).2, rfl⟩)⟩
  | encrypt len =>
    simp only [exec, execEncrypt]
    split
    · exact ⟨_, s, rfl, .inl rfl⟩
    · split
      · exact ⟨_, s, rfl, .inl rfl⟩
      · exact ⟨_, _, rfl, .inr (.inr (.inr ⟨rfl, .inl ⟨len, rfl⟩, _, rfl⟩))⟩
  | decrypt len =>
    simp only [exec, execDecrypt]
    split
    · exact ⟨_, s, rfl, .inl rfl⟩
    · split
      · exact ⟨_, s, rfl, .inl rfl⟩
      · exact ⟨_, _, rfl, .inr (.inr (.inr ⟨rfl, .inr (.inl ⟨len, rfl⟩), _, rfl⟩))⟩
  | forcekey rnd =>
    simp only [exec, execForcekey]
    split
    · exact ⟨_, s, rfl, .inl rfl⟩
    · next n h =>
      exact ⟨_, _, rfl, .inr (.inr (.inl ⟨rfl, ⟨rnd, rfl⟩, n, (rounds_bounds h).1, (rounds_bounds h).2, rfl⟩))⟩
  | rkread idx =>
    simp only [exec, execRkread]
    split
    · exact ⟨_, s, rfl, .inl rfl⟩
    · split
      · exact ⟨_, s, rfl, .inl rfl⟩
      · exact ⟨_, _, rfl, .inr (.inr (.inr ⟨rfl, .inr (.inr ⟨idx, rfl⟩), _, rfl⟩))⟩

theorem completeCommand_ok {s : State} {i : Instr} (h : decode s.pend.cmd = .ok i) : completeCommand s = exec i s := by
  simp [completeCommand, h]

theorem completeCommand_illegal {s : State} {e : Illegal} (h : decode s.pend.cmd = .error e) :
    completeCommand s = .next (complete .illegalCmd s) := by
  simp [completeCommand, h]

/-! ## The bus -/

/-- An offset of the window is where BASE + offset falls, whatever BASE is. -/
theorem windowOffset_base {off : Nat} (h : off < Config.windowBytes) : windowOffset (Config.base + off) = some off := by
  unfold windowOffset
  rw [if_pos ⟨by omega, by omega⟩]
  simp

theorem windowOffset_eq_some {addr off : Nat} :
    windowOffset addr = some off ↔ addr = Config.base + off ∧ off < Config.windowBytes := by
  unfold windowOffset
  split <;> simp <;> omega

theorem windowOffset_eq_none {addr : Nat} :
    windowOffset addr = none ↔ addr < Config.base ∨ Config.base + Config.windowBytes ≤ addr := by
  unfold windowOffset
  split <;> simp <;> omega

theorem offerCommand_busy {w : Word} {s : State} (h : s.busy = true) : offerCommand w s = { s with ovr := true } := by
  simp [offerCommand, h]

theorem offerCommand_idle {w : Word} {s : State} (h : s.busy = false) : offerCommand w s = acceptCommand w s := by
  simp [offerCommand, h]

/-- Everything a register write can do: a reset, an acceptance, or a change of OVR and the operand registers only. -/
theorem writeReg_cases (r : Reg) (v : Word) (s : State) :
    (r = .ctrl ∧ v.getLsbD 0 = true ∧ writeReg r v s = resetEngine s) ∨
    (r = .cmd ∧ s.busy = false ∧ writeReg r v s = acceptCommand v s) ∨
    (∃ key din fkey ovr, writeReg r v s = { s with key := key, din := din, fkey := fkey, ovr := ovr }) := by
  cases r <;> simp only [writeReg, offerCommand, writeStatus, writeCtrl]
  case ctrl =>
    by_cases h : v.getLsbD 0 = true
    · left; simp [h]
    · right; right; exact ⟨s.key, s.din, s.fkey, s.ovr, by rw [if_neg h]⟩
  case cmd =>
    by_cases h : s.busy = true
    · right; right; exact ⟨s.key, s.din, s.fkey, true, by simp [h]⟩
    · right; left; simp [h]
  case status =>
    right; right
    by_cases h : v.getLsbD 3 = true
    · exact ⟨s.key, s.din, s.fkey, false, by simp [h]⟩
    · exact ⟨s.key, s.din, s.fkey, s.ovr, by rw [if_neg h]⟩
  all_goals exact .inr (.inr ⟨_, _, _, _, rfl⟩)

/-- Everything a bus write can do. -/
theorem busWrite_cases (width off : Nat) (v : Word) (s : State) :
    (s.resetAsserted = true ∧ busWrite width off v s = s) ∨
    (s.resetAsserted = false ∧ legalAccess width off = true ∧ busWrite width off v s = writeReg (regAt off) v s) ∨
    (s.resetAsserted = false ∧ legalAccess width off = false ∧ busWrite width off v s = observe (.busError off) s) := by
  unfold busWrite
  split
  · left; simp_all
  · split <;> simp_all

/-- Everything one operation of the host can do: stop outside the window, a bus write, a bus read, or one turn of WAIT. -/
theorem hostOp_next {op : HostOp} {s t : State} (h : hostOp op s = .next t) :
    (∃ width off v, op = .write (Config.base + off) width v ∧ off < Config.windowBytes ∧ t = busWrite width off v s) ∨
    (∃ width off, op = .read (Config.base + off) width ∧ off < Config.windowBytes ∧ t = busRead width off s) ∨
    (op = .wait ∧ statusSaysBusy (readResponse 32 0x08 s) = true ∧
      t = busRead 32 0x08 { s with host := .wait :: s.host }) ∨
    (op = .wait ∧ statusSaysBusy (readResponse 32 0x08 s) = false ∧ t = busRead 32 0x08 s) := by
  cases op with
  | write addr width v =>
    simp only [hostOp, hostWrite] at h
    split at h
    · cases h
    · next off ho =>
      obtain ⟨rfl, hlt⟩ := windowOffset_eq_some.mp ho
      exact .inl ⟨width, off, v, rfl, hlt, (next_inj.mp h).symm⟩
  | read addr width =>
    simp only [hostOp, hostRead] at h
    split at h
    · cases h
    · next off ho =>
      obtain ⟨rfl, hlt⟩ := windowOffset_eq_some.mp ho
      exact .inr (.inl ⟨width, off, rfl, hlt, (next_inj.mp h).symm⟩)
  | wait =>
    simp only [hostOp, hostWait] at h
    split at h
    · next hb => exact .inr (.inr (.inl ⟨rfl, hb, (next_inj.mp h).symm⟩))
    · next hb => exact .inr (.inr (.inr ⟨rfl, by simpa using hb, (next_inj.mp h).symm⟩))

/-! ## The step -/

theorem step_eq (s : State) : step s = takeTurn s := rfl

theorem step_host {s : State} {rest : List Turn} (h : s.schedule = .host :: rest) :
    step s = hostTurn { s with schedule := rest } := by
  simp [step_eq, takeTurn, h]

theorem step_engine {s : State} {rest : List Turn} (h : s.schedule = .engine :: rest) :
    step s = engineTurn { s with schedule := rest } := by
  simp [step_eq, takeTurn, h]

theorem step_assertReset {s : State} {rest : List Turn} (h : s.schedule = .assertReset :: rest) :
    step s = .next (assertReset { s with schedule := rest }) := by
  simp [step_eq, takeTurn, h]

theorem step_releaseReset {s : State} {rest : List Turn} (h : s.schedule = .releaseReset :: rest) :
    step s = .next (releaseReset { s with schedule := rest }) := by
  simp [step_eq, takeTurn, h]

theorem step_fair_engine {s : State} (h : s.schedule = []) (hc : completionEnabled s = true) : step s = completeCommand s := by
  simp [step_eq, takeTurn, fairTurn, h, hc]

theorem step_fair_host {s : State} (h : s.schedule = []) (hc : completionEnabled s = false) : step s = hostTurn s := by
  simp [step_eq, takeTurn, fairTurn, h, hc]

theorem completionEnabled_iff {s : State} : completionEnabled s = true ↔ s.busy = true ∧ s.resetAsserted = false := by
  simp [completionEnabled]

end Sys2Proof.Machine
end

