-- ==== Sys2Proof/Laws/Step.lean ====
section
/-! SUPPORT. What one step can be: the inversion of a step by who moved, and the run of n steps. -/

namespace Sys2Proof.Machine

open Sys2Proof.Safety

/-- The state a step starts from once its turn is used up. -/
abbrev afterTurn (s : State) : State := { s with schedule := s.schedule.tail }

theorem afterTurn_of_nil {s : State} (h : s.schedule = []) : afterTurn s = s := by
  cases s; simp_all [afterTurn]

/-- The host's turn: its next operation, or nothing where none is left. -/
theorem hostTurn_next {s t : State} (hop : hostOpNext s = s.host.head?) (h : hostTurn (afterTurn s) = .next t) :
    (∃ op rest, hostOpNext s = some op ∧ s.host = op :: rest ∧
      hostOp op { s with schedule := s.schedule.tail, host := rest } = .next t) ∨ t = afterTurn s := by
  unfold hostTurn at h
  split at h
  · exact .inr (next_inj.mp h).symm
  · next op rest ho =>
    have ho' : s.host = op :: rest := ho
    exact .inl ⟨op, rest, by rw [hop, ho']; rfl, ho', h⟩

/-- A step that answers a next state is a completion, a host operation, a change of the reset input, or nothing at all. -/
theorem step_next_cases {s t : State} (h : step s = .next t) :
    (engineCompletes s = true ∧ completeCommand (afterTurn s) = .next t) ∨
    (∃ op rest, hostOpNext s = some op ∧ s.host = op :: rest ∧ hostOp op { s with schedule := s.schedule.tail, host := rest } = .next t) ∨
    (resetInputNext s = true ∧ (t = assertReset (afterTurn s) ∨ t = releaseReset (afterTurn s))) ∨
    (engineCompletes s = false ∧ t = afterTurn s) := by
  obtain hs | ⟨turn, rest, hs⟩ : s.schedule = [] ∨ ∃ turn rest, s.schedule = turn :: rest := by cases s.schedule <;> simp
  · have hb := afterTurn_of_nil hs
    rcases hc : completionEnabled s with _ | _
    · rw [step_fair_host hs hc] at h
      rw [← hb] at h
      obtain h1 | h1 := hostTurn_next (by simp [hostOpNext, hs, hc]) h
      · exact .inr (.inl h1)
      · exact .inr (.inr (.inr ⟨by simp [engineCompletes, hs, hc], h1⟩))
    · rw [step_fair_engine hs hc] at h
      exact .inl ⟨by simp [engineCompletes, hs, hc], by rw [hb]; exact h⟩
  · cases turn with
    | host =>
      rw [step_host hs] at h
      have hb : ({ s with schedule := rest } : State) = afterTurn s := by simp [afterTurn, hs]
      rw [hb] at h
      obtain h1 | h1 := hostTurn_next (by simp [hostOpNext, hs]) h
      · exact .inr (.inl h1)
      · exact .inr (.inr (.inr ⟨by simp [engineCompletes, hs], h1⟩))
    | engine =>
      rw [step_engine hs] at h
      unfold engineTurn at h
      split at h
      · next hc =>
        have hc : completionEnabled s = true := hc
        refine .inl ⟨by simpa [engineCompletes, hs] using hc, ?_⟩
        simpa [afterTurn, hs] using h
      · next hc =>
        have hc : ¬ completionEnabled s = true := hc
        refine .inr (.inr (.inr ⟨by simpa [engineCompletes, hs] using hc, ?_⟩))
        simpa [afterTurn, hs] using (next_inj.mp h).symm
    | assertReset =>
      rw [step_assertReset hs] at h
      exact .inr (.inr (.inl ⟨by simp [resetInputNext, hs], .inl (by simpa [afterTurn, hs] using (next_inj.mp h).symm)⟩))
    | releaseReset =>
      rw [step_releaseReset hs] at h
      exact .inr (.inr (.inl ⟨by simp [resetInputNext, hs], .inr (by simpa [afterTurn, hs] using (next_inj.mp h).symm)⟩))

/-- A completion step answers what completing the command answers. -/
theorem step_of_engineCompletes {s : State} (h : engineCompletes s = true) : step s = completeCommand (afterTurn s) := by
  obtain hs | ⟨turn, rest, hs⟩ : s.schedule = [] ∨ ∃ turn rest, s.schedule = turn :: rest := by cases s.schedule <;> simp
  · simp only [engineCompletes, hs] at h
    rw [step_fair_engine hs h, afterTurn_of_nil hs]
  · cases turn <;> simp only [engineCompletes, hs] at h
    case engine => simp [step_engine hs, engineTurn, afterTurn, hs, show completionEnabled { s with schedule := rest } = true from h]
    all_goals cases h

/-- A completion always answers a next state. -/
theorem completeCommand_next (s : State) : ∃ t, completeCommand s = .next t ∧ t.busy = false ∧ t.done = true ∧ t.host = s.host ∧
    t.schedule = s.schedule ∧ t.observed = s.observed ∧ t.resetAsserted = s.resetAsserted ∧ t.pend = s.pend := by
  unfold completeCommand
  split
  · next i _ =>
    obtain ⟨code, u, he, hu⟩ := exec_cases i s
    refine ⟨_, he, rfl, rfl, ?_⟩
    obtain rfl | ⟨_, _, n, _, _, rfl⟩ | ⟨_, _, n, _, _, rfl⟩ | ⟨_, _, v, rfl⟩ := hu <;> simp
  · exact ⟨_, rfl, rfl, rfl, rfl, rfl, rfl, rfl, rfl⟩

/-- What a completion step can have done to the state its turn leaves: status alone, or with OK one schedule load or one write of DOUT. -/
theorem completion_effects {s t : State} (h : completeCommand (afterTurn s) = .next t) :
    ∃ code u, t = complete code u ∧ (u = afterTurn s ∨
      (code = .ok ∧ (∃ len rnd, decode s.pend.cmd = .ok (.keysched len rnd)) ∧
        ∃ n, 1 ≤ n ∧ n ≤ 16 ∧ u = loadSchedule (keySchedule s.pend.key n) false (afterTurn s)) ∨
      (code = .ok ∧ (∃ rnd, decode s.pend.cmd = .ok (.forcekey rnd)) ∧
        ∃ n, 1 ≤ n ∧ n ≤ 16 ∧ u = loadSchedule (List.replicate n s.pend.fkey) true (afterTurn s)) ∨
      (code = .ok ∧ ((∃ len, decode s.pend.cmd = .ok (.encrypt len)) ∨ (∃ len, decode s.pend.cmd = .ok (.decrypt len)) ∨
        (∃ idx, decode s.pend.cmd = .ok (.rkread idx))) ∧ ∃ v, u = setDout v (afterTurn s))) := by
  unfold completeCommand at h
  split at h
  · next i hd =>
    have hd : decode s.pend.cmd = .ok i := hd
    obtain ⟨code, u, hx, hu⟩ := exec_cases i (afterTurn s)
    rw [hx] at h
    refine ⟨code, u, (next_inj.mp h).symm, ?_⟩
    obtain rfl | ⟨h0, ⟨a, b, rfl⟩, hn⟩ | ⟨h0, ⟨a, rfl⟩, hn⟩ | ⟨h0, hi, hv⟩ := hu
    · exact .inl rfl
    · exact .inr (.inl ⟨h0, ⟨a, b, hd⟩, hn⟩)
    · exact .inr (.inr (.inl ⟨h0, ⟨a, hd⟩, hn⟩))
    · refine .inr (.inr (.inr ⟨h0, ?_, hv⟩))
      obtain ⟨a, rfl⟩ | ⟨a, rfl⟩ | ⟨a, rfl⟩ := hi
      · exact .inl ⟨a, hd⟩
      · exact .inr (.inl ⟨a, hd⟩)
      · exact .inr (.inr ⟨a, hd⟩)
  · exact ⟨_, _, (next_inj.mp h).symm, .inl rfl⟩

theorem engineCompletes_enabled {s : State} (h : engineCompletes s = true) : s.busy = true ∧ s.resetAsserted = false := by
  unfold engineCompletes at h
  split at h <;> first | exact completionEnabled_iff.mp h | cases h

/-- The offset a register stands at is the only one. -/
theorem regAt_special {off : Nat} : (regAt off = .cmd → off = 0x04) ∧ (regAt off = .status → off = 0x08) ∧
    (regAt off = .ctrl → off = 0x0C) := by
  unfold regAt
  split <;> simp

/-- Everything a host write can do to the engine, named by the event it is. -/
theorem hostWrite_effects {s : State} {width off : Nat} {v : Word} {rest : List HostOp}
    (hop : hostOpNext s = some (.write (Config.base + off) width v)) (hlt : off < Config.windowBytes) :
    let b : State := { s with schedule := s.schedule.tail, host := rest }
    let t := busWrite width off v b
    (hostDoesNext isSoftReset s = true ∧ t = resetEngine b) ∨
    (hostDoesNext isCmdWrite s = true ∧ s.busy = false ∧ t = acceptCommand v b) ∨
    (hostDoesNext isCmdWrite s = true ∧ s.busy = true ∧ t = { b with ovr := true }) ∨
    (hostDoesNext isOvrClear s = true ∧ t = { b with ovr := false }) ∨
    (∃ key din fkey, t = { b with key := key, din := din, fkey := fkey }) ∨
    t = observe (.busError off) b := by
  intro b t
  have hw := windowOffset_base hlt
  obtain ⟨_, e⟩ | ⟨hr, hl, e⟩ | ⟨_, _, e⟩ := busWrite_cases width off v b
  · exact .inr (.inr (.inr (.inr (.inl ⟨s.key, s.din, s.fkey, e⟩))))
  · have hr : s.resetAsserted = false := hr
    rcases hreg : regAt off <;> rw [hreg] at e
    case ctrl =>
      obtain rfl := regAt_special.2.2 hreg
      by_cases hv : v.getLsbD 0 = true
      · refine .inl ⟨?_, e.trans (if_pos hv)⟩
        simp only [hostDoesNext, hop, hr, isSoftReset, writesWhen, hw, hl, hv, Option.any, Bool.not_false, Bool.and_self,
          beq_self_eq_true]
      · exact .inr (.inr (.inr (.inr (.inl ⟨s.key, s.din, s.fkey, e.trans (if_neg hv)⟩))))
    case cmd =>
      obtain rfl := regAt_special.1 hreg
      have hc : hostDoesNext isCmdWrite s = true := by
        simp only [hostDoesNext, hop, hr, isCmdWrite, writesWhen, hw, hl, Option.any, Bool.not_false, Bool.and_self,
          beq_self_eq_true]
      by_cases hb : s.busy = true
      · exact .inr (.inr (.inl ⟨hc, hb, e.trans (offerCommand_busy (s := b) hb)⟩))
      · exact .inr (.inl ⟨hc, by simpa using hb, e.trans (offerCommand_idle (s := b) (by simpa using hb))⟩)
    case status =>
      obtain rfl := regAt_special.2.1 hreg
      by_cases hv : v.getLsbD 3 = true
      · refine .inr (.inr (.inr (.inl ⟨?_, e.trans (if_pos hv)⟩)))
        simp only [hostDoesNext, hop, hr, isOvrClear, writesWhen, hw, hl, hv, Option.any, Bool.not_false, Bool.and_self,
          beq_self_eq_true]
      · exact .inr (.inr (.inr (.inr (.inl ⟨s.key, s.din, s.fkey, e.trans (if_neg hv)⟩))))
    all_goals exact .inr (.inr (.inr (.inr (.inl ⟨_, _, _, e⟩))))
  · exact .inr (.inr (.inr (.inr (.inr e))))

/-- Everything a step that is no completion can do, by the event it is: a reset, an acceptance, an overrun, a clearing of OVR, or a change
of the operand registers and the host's side alone. -/
theorem step_effects {s t : State} (h : step s = .next t) :
    (engineCompletes s = true ∧ completeCommand (afterTurn s) = .next t) ∨
    (resetNext s = true ∧ EngineReset t ∧ t.observed = s.observed) ∨
    (hostDoesNext isCmdWrite s = true ∧ s.busy = false ∧
      ∃ v ops, t = acceptCommand v { s with schedule := s.schedule.tail, host := ops }) ∨
    (hostDoesNext isCmdWrite s = true ∧ s.busy = true ∧
      ∃ ops, t = { s with schedule := s.schedule.tail, host := ops, ovr := true }) ∨
    (hostDoesNext isOvrClear s = true ∧ ∃ ops, t = { s with schedule := s.schedule.tail, host := ops, ovr := false }) ∨
    (∃ ops key din fkey answers, t = { s with
      schedule := s.schedule.tail, host := ops, key := key, din := din, fkey := fkey, observed := s.observed ++ answers }) := by
  have quiet : ∀ ops key din fkey, t = { s with schedule := s.schedule.tail, host := ops, key := key, din := din, fkey := fkey } →
      ∃ ops key din fkey answers, t = { s with
        schedule := s.schedule.tail, host := ops, key := key, din := din, fkey := fkey, observed := s.observed ++ answers } :=
    fun ops key din fkey e => ⟨ops, key, din, fkey, [], by simpa using e⟩
  obtain ⟨hc, he⟩ | ⟨op, rest, hop, _, ho⟩ | ⟨hr, rfl | rfl⟩ | ⟨_, ht⟩ := step_next_cases h
  · exact .inl ⟨hc, he⟩
  · obtain ⟨width, off, v, rfl, hlt, ht⟩ | ⟨_, _, _, _, ht⟩ | ⟨_, _, ht⟩ | ⟨_, _, ht⟩ := hostOp_next ho
    · obtain ⟨hd, e⟩ | ⟨hd, hb, e⟩ | ⟨hd, hb, e⟩ | ⟨hd, e⟩ | ⟨key, din, fkey, e⟩ | e := hostWrite_effects (rest := rest) hop hlt
      · refine .inr (.inl ⟨by simp [resetNext, hd], ?_, ?_⟩) <;> rw [ht, e]
        · exact engineReset_resetEngine _
        · rfl
      · exact .inr (.inr (.inl ⟨hd, hb, v, rest, ht.trans e⟩))
      · exact .inr (.inr (.inr (.inl ⟨hd, hb, rest, ht.trans e⟩)))
      · exact .inr (.inr (.inr (.inr (.inl ⟨hd, rest, ht.trans e⟩))))
      · exact .inr (.inr (.inr (.inr (.inr (quiet rest key din fkey (ht.trans e))))))
      · exact .inr (.inr (.inr (.inr (.inr ⟨rest, _, _, _, [_], ht.trans e⟩))))
    all_goals exact .inr (.inr (.inr (.inr (.inr ⟨_, _, _, _, [_], ht⟩))))
  · exact .inr (.inl ⟨by simp [resetNext, hr], engineReset_assertReset _, rfl⟩)
  · exact .inr (.inl ⟨by simp [resetNext, hr], engineReset_releaseReset _, rfl⟩)
  · exact .inr (.inr (.inr (.inr (.inr (quiet s.host s.key s.din s.fkey ht)))))

/-- A step on which the host has an operation next is that operation. -/
theorem step_of_hostOpNext {s : State} {op : HostOp} (h : hostOpNext s = some op) :
    ∃ rest, s.host = op :: rest ∧ step s = hostOp op { s with schedule := s.schedule.tail, host := rest } := by
  have key : ∀ b : State, b.host.head? = some op → ∃ rest, b.host = op :: rest ∧ hostTurn b = hostOp op { b with host := rest } := by
    intro b hb
    obtain ⟨rest, hr⟩ := List.head?_eq_some_iff.mp hb
    exact ⟨rest, hr, by unfold hostTurn; rw [hr]⟩
  unfold hostOpNext at h
  split at h
  · next hs =>
    split at h
    · cases h
    · next hc =>
      obtain ⟨rest, hr, e⟩ := key s h
      refine ⟨rest, hr, ?_⟩
      rw [step_fair_host hs (by simpa using hc), e, hs]
      rfl
  · next r hs =>
    obtain ⟨rest, hr, e⟩ := key { s with schedule := r } h
    exact ⟨rest, hr, by rw [step_host hs, e, hs]; rfl⟩
  all_goals cases h

/-- A step that is a legal write of a register makes that write. -/
theorem step_of_hostDoesNext {s : State} {off : Nat} {p : Word → Bool} (h : hostDoesNext (writesWhen off p) s = true) :
    ∃ v rest, p v = true ∧ s.host.tail = rest ∧
      step s = .next (writeReg (regAt off) v { s with schedule := s.schedule.tail, host := rest }) := by
  simp only [hostDoesNext, Bool.and_eq_true, Bool.not_eq_true'] at h
  obtain ⟨hr, hop⟩ := h
  obtain ⟨op, ho, hp⟩ := Option.any_eq_true _ _ |>.mp hop
  obtain ⟨rest, hh, e⟩ := step_of_hostOpNext ho
  cases op with
  | write addr width v =>
    simp only [writesWhen, Bool.and_eq_true, beq_iff_eq] at hp
    obtain ⟨⟨hw, hl⟩, hv⟩ := hp
    refine ⟨v, rest, hv, by rw [hh]; rfl, e.trans ?_⟩
    simp [hostOp, hostWrite, hw, busWrite, hr, hl]
  | read _ _ => cases hp
  | wait => cases hp

/-! ## Runs -/

@[simp] theorem run_zero (s : State) : run 0 s = .next s := rfl

/-- One step, then the rest. -/
theorem run_succ {n : Nat} {s t : State} (h : step s = .next t) : run (n + 1) s = run n t := by
  show Sys2Proof.core.run (n + 1) s = Sys2Proof.core.run n t
  simp only [Host.Core.run]
  have : Sys2Proof.core.step s = .next t := h
  rw [this]

/-- Runs compose. -/
theorem run_add {m n : Nat} {s u : State} (h : run m s = .next u) : run (m + n) s = run n u := by
  induction m generalizing s with
  | zero => simp only [run_zero, next_inj] at h; simp [h]
  | succ m ih =>
    rcases hs : step s with t | r | r
    · rw [run_succ hs] at h
      rw [show m + 1 + n = (m + n) + 1 by omega, run_succ hs, ih h]
    all_goals
      have hr : Sys2Proof.core.run (m + 1) s = .next u := h
      have hc : Sys2Proof.core.step s = _ := hs
      simp [Host.Core.run, hc] at hr

end Sys2Proof.Machine
end

