-- ==== Sys2Proof/Laws/Invariant.lean ====
section
/-! SUPPORT. What keeps the invariants: loading a schedule makes R30 true, and an update that leaves the schedule fields alone keeps it. -/

namespace Sys2Proof.Machine

open Sys2Proof.Safety

/-- The invariants of R30 depend on the schedule fields only. -/
theorem scheduleInv_congr {s t : State} (h : ScheduleInv s) (hr : t.rk = s.rk) (hn : t.nr = s.nr) (hk : t.kv = s.kv)
    (hd : t.degen = s.degen) : ScheduleInv t where
  unloaded := by rw [hk, hn, hd]; exact h.unloaded
  loaded := by rw [hk, hn]; exact h.loaded
  repeated := by
    intro h1 i hi
    rw [rkSlot_congr hr, rkSlot_congr hr]
    exact h.repeated (hd ▸ h1) i (hn ▸ hi)
  cleared := by
    intro i h1 h2
    rw [rkSlot_congr hr]
    exact h.cleared i (hn ▸ h1) h2

/-- Both invariants depend on the schedule and status fields only. -/
theorem inv_congr {s t : State} (h : Inv s) (hr : t.rk = s.rk) (hn : t.nr = s.nr) (hk : t.kv = s.kv) (hd : t.degen = s.degen)
    (hb : t.busy = s.busy) (hdn : t.done = s.done) (he : t.errcode = s.errcode) (ha : t.resetAsserted = s.resetAsserted) :
    Inv t :=
  ⟨scheduleInv_congr h.schedule hr hn hk hd,
    ⟨by rw [hb, hdn]; exact h.status.inFlight, by rw [hdn, he]; exact h.status.notDone,
      by rw [ha, hb, hdn, hk]; exact h.status.underReset⟩⟩

/-- A load of 1 to 16 keys, all equal when forced, makes R30 true. -/
theorem scheduleInv_loadSchedule (keys : List RoundKey) (forced : Bool) (s : State) (h1 : 1 ≤ keys.length) (h2 : keys.length ≤ 16)
    (hf : forced = true → ∀ i < keys.length, keys.getD i 0 = keys.getD 0 0) : ScheduleInv (loadSchedule keys forced s) where
  unloaded := by simp
  loaded := by
    intro _
    rw [loadSchedule_nr, ofNat5_toNat h2]
    exact ⟨h1, h2⟩
  repeated := by
    intro hd i hi
    rw [loadSchedule_nr, ofNat5_toNat h2] at hi
    rw [rkSlot_loadSchedule _ _ _ (by omega), rkSlot_loadSchedule _ _ _ (by omega)]
    exact hf hd i hi
  cleared := by
    intro i h3 h4
    rw [loadSchedule_nr, ofNat5_toNat h2] at h3
    rw [rkSlot_loadSchedule _ _ _ h4]
    simp [List.getD_eq_getElem?_getD, h3]

/-- A reset makes every invariant true, whatever is said of the reset input. -/
theorem inv_of_engineReset {s : State} (h : EngineReset s) : Inv s where
  schedule := ⟨fun _ => ⟨h.nr, h.degen⟩, by simp [h.kv], by simp [h.degen], fun i _ hi => h.rk i hi⟩
  status := ⟨by simp [h.busy], fun _ => h.errcode, fun _ => ⟨h.busy, h.done, h.kv⟩⟩

end Sys2Proof.Machine
end

