-- ==== Sys2Proof/Laws/PerInstr.lean ====
section
/-! SUPPORT. Statements made of every command as syntax, one lemma a constructor. -/

namespace Sys2Proof.Laws.EncodesInRow

/-- The word of a well-formed command selects the command's own row of the opcode map (30_encoding.md R78). -/
def Statement (i : Instr) : Prop := i.wellFormed = true → i.row.selects (encode i) = true

theorem nop : Statement .nop := by
  intro _
  decide

theorem keysched (len rnd : Nat) : Statement (.keysched len rnd) := by
  intro _
  have h : ∀ (l : BitVec 4) (r : BitVec 5),
      rowKeysched.selects (0#12 ++ 0#4 ++ 0#3 ++ r ++ l ++ 1#4 : BitVec 32) = true := by decide
  exact h (BitVec.ofNat 4 len) (BitVec.ofNat 5 rnd)

theorem encrypt (len : Nat) : Statement (.encrypt len) := by
  intro _
  have h : ∀ l : BitVec 4, rowEncrypt.selects (0#12 ++ 0#4 ++ 0#3 ++ 0#5 ++ l ++ 2#4 : BitVec 32) = true := by decide
  exact h (BitVec.ofNat 4 len)

theorem decrypt (len : Nat) : Statement (.decrypt len) := by
  intro _
  have h : ∀ l : BitVec 4, rowDecrypt.selects (0#12 ++ 0#4 ++ 0#3 ++ 0#5 ++ l ++ 3#4 : BitVec 32) = true := by decide
  exact h (BitVec.ofNat 4 len)

theorem forcekey (rnd : Nat) : Statement (.forcekey rnd) := by
  intro _
  have h : ∀ r : BitVec 5, rowForcekey.selects (0#12 ++ 0#4 ++ 0#3 ++ r ++ 0#4 ++ 4#4 : BitVec 32) = true := by decide
  exact h (BitVec.ofNat 5 rnd)

theorem rkread (idx : Nat) : Statement (.rkread idx) := by
  intro _
  have h : ∀ x : BitVec 4, rowRkread.selects (0#12 ++ x ++ 0#3 ++ 0#5 ++ 0#4 ++ 5#4 : BitVec 32) = true := by decide
  exact h (BitVec.ofNat 4 idx)

end Sys2Proof.Laws.EncodesInRow
end

