-- ==== Sys2Proof/Tests/Slice0.lean ====
section
/-! SUPPORT. The model's own tests: ill-formed terms refused, words written out from 30_encoding.md R71 decoded, single completions against
95_test_vectors.md, and for each statement of Obligations.lean with hypotheses a state and operands that meet them (test_meets_…). -/

namespace Sys2Proof.Tests

open Sys2Proof.Machine Sys2Proof.Safety

/-! ## WellFormed: each check refuses a term (R71: LEN 4 bits, RND 5 bits, IDX 4 bits) -/

theorem test_illformed_keysched_len : (Instr.keysched 16 0).wellFormed = false := by decide
theorem test_illformed_keysched_rnd : (Instr.keysched 8 32).wellFormed = false := by decide
theorem test_illformed_encrypt_len : (Instr.encrypt 16).wellFormed = false := by decide
theorem test_illformed_decrypt_len : (Instr.decrypt 16).wellFormed = false := by decide
theorem test_illformed_forcekey_rnd : (Instr.forcekey 32).wellFormed = false := by decide
theorem test_illformed_rkread_idx : (Instr.rkread 16).wellFormed = false := by decide

/-! ## Decoding: fields as R71 draws them, 31:20 | IDX | 15:13 | RND | LEN | OPC -/

theorem test_decode_nop : decode (0#12 ++ 0b0000#4 ++ 0#3 ++ 0b00000#5 ++ 0b0000#4 ++ 0b0000#4 : BitVec 32) = .ok .nop := by decide
theorem test_decode_keysched :
    decode (0#12 ++ 0b0000#4 ++ 0#3 ++ 0b01111#5 ++ 0b1000#4 ++ 0b0001#4 : BitVec 32) = .ok (.keysched 8 15) := by decide
theorem test_decode_encrypt :
    decode (0#12 ++ 0b0000#4 ++ 0#3 ++ 0b00000#5 ++ 0b1001#4 ++ 0b0010#4 : BitVec 32) = .ok (.encrypt 9) := by decide
theorem test_decode_decrypt :
    decode (0#12 ++ 0b0000#4 ++ 0#3 ++ 0b00000#5 ++ 0b0111#4 ++ 0b0011#4 : BitVec 32) = .ok (.decrypt 7) := by decide
theorem test_decode_forcekey :
    decode (0#12 ++ 0b0000#4 ++ 0#3 ++ 0b10001#5 ++ 0b0000#4 ++ 0b0100#4 : BitVec 32) = .ok (.forcekey 17) := by decide
theorem test_decode_rkread :
    decode (0#12 ++ 0b1011#4 ++ 0#3 ++ 0b00000#5 ++ 0b0000#4 ++ 0b0101#4 : BitVec 32) = .ok (.rkread 11) := by decide
theorem test_decode_reserved_opcode : decode 0xFFFFFFFF#32 = .error (.reservedOpcode 15) := by decide
theorem test_decode_reserved_bit : decode 0x80000081#32 = .error (.nonzeroUnusedBits 1) := by decide
theorem test_decode_unused_field : decode 0x00001172#32 = .error (.nonzeroUnusedBits 2) := by decide
theorem test_table_rows_disjoint :
    opcodeTable.Pairwise (fun a b => a.matchBits &&& (a.mask &&& b.mask) ≠ b.matchBits &&& (a.mask &&& b.mask)) := by decide
theorem test_decodeTableWord : decodeTableWord 32 0x00000481 = some (.keysched 8 4) := by decide

/-! ## Primitives (95_test_vectors.md 2.1, 2.2) -/

theorem test_perm_E : perm 48 tableE 0x80000001#32 = 0xC00000000003#48 := by decide +kernel
theorem test_perm_P : perm 32 tableP 0x80000000#32 = 0x00800000#32 := by decide +kernel
theorem test_perm_IP : perm 64 tableIP 0x0123456789ABCDEF#64 = 0xCC00CCFFF0AAF0AA#64 := by decide +kernel
theorem test_perm_FP : perm 64 tableFP 0x0000000000000001#64 = 0x0200000000000000#64 := by decide +kernel
theorem test_perm_PC1 : perm 56 tablePC1 0x133457799BBCDFF1#64 = 0xF0CCAAF556678F#56 := by decide +kernel
theorem test_rotl28 : rotl28 0xC000000#28 2 = 0x0000003#28 := by decide
theorem test_sboxes_in_3F : sLayer 0xFFFFFFFFFFFF#48 = 0xD9CE3DCB#32 := by decide +kernel
theorem test_sboxes_in_20 :
    [tableS1, tableS2, tableS3, tableS4, tableS5, tableS6, tableS7, tableS8].map (fun t => (sbox t 0x20#6).toNat) =
      [4, 0, 13, 10, 4, 9, 1, 7] := by decide

/-! ## One completion each (95_test_vectors.md 2.4, 2.6, 2.8, 3) -/

/-- A command word accepted, with its operands, over the state `s`. -/
def inFlight (s : State) (w : Word) (key din : Block) (fkey : RoundKey) : State :=
  { s with pend := ⟨w, key, din, fkey⟩, busy := true, schedule := [.engine] }

/-- The two-round schedule of key 0x3132333435363738 (2.4). -/
def twoRounds : State :=
  { State.reset with rk := slotsOf [0x502CAC572AC2#48, 0x50ACA450A347#48], nr := 2, kv := true }

/-- Sixteen slots of one key, forced. -/
def forced : State := { State.reset with rk := Vector.replicate 16 0xA09222000000#48, nr := 16, kv := true, degen := true }

/-- What the step answers, as a field of its next state. -/
def seen {α : Type} (f : State → α) : Host.Outcome State Fault Refusal → Option α
  | .next t => some (f t)
  | .fault _ => none
  | .refused _ => none

theorem test_nop_clears_errcode :
    seen (fun t => (t.errcode, t.done, t.dout)) (step { inFlight State.reset 0 0 0 0 with dout := 5 }) = some (.ok, true, 5) := by decide
theorem test_keysched_slot3 :
    seen (fun t => (rkSlot t 3, rkSlot t 4, t.nr)) (step (inFlight State.reset 0x481#32 0x3132333435363738#64 0 0)) =
      some (0xE0A6264837CB#48, 0#48, 4#5) := by decide +kernel
theorem test_keysched_slot15 :
    seen (fun t => (rkSlot t 0, rkSlot t 15, statusWord t)) (step (inFlight forced 0x81#32 0x133457799BBCDFF1#64 0 0)) =
      some (0x1B02EFFC7072#48, 0xCB3D8B0E17F5#48, 0x1012#32) := by decide +kernel
theorem test_encrypt_two_rounds :
    seen (·.dout) (step (inFlight twoRounds 0x82#32 0 0x3041314232433344#64 0)) = some 0x577BEFC070955F05#64 := by decide +kernel
theorem test_encrypt_no_key : seen statusWord (step (inFlight State.reset 0x82#32 0 0 0)) = some 0x00050006#32 := by decide
theorem test_decrypt_two_rounds :
    seen (·.dout) (step (inFlight twoRounds 0x83#32 0 0x577BEFC070955F05#64 0)) = some 0x3041314232433344#64 := by decide +kernel
theorem test_decrypt_length_before_key : seen (·.errcode) (step (inFlight State.reset 0x03#32 0 0 0)) = some .invalidBlock := by decide
theorem test_forcekey_one_round :
    seen (fun t => (rkSlot t 0, rkSlot t 1, statusWord t)) (step (inFlight State.reset 0x104#32 0 0 0xA09222000000#48)) =
      some (0xA09222000000#48, 0#48, 0x132#32) := by decide
theorem test_forcekey_bad_rounds : seen (·.errcode) (step (inFlight forced 0x1104#32 0 0 0)) = some .invalidRounds := by decide
theorem test_rkread_slot : seen (·.dout) (step (inFlight twoRounds 0x00010005#32 0 0 0)) = some 0x000050ACA450A347#64 := by decide
theorem test_rkread_range : seen (fun t => (t.errcode, t.dout)) (step (inFlight twoRounds 0x00020005#32 0 0 0)) =
    some (.rkRange, 0) := by decide
theorem test_known_answer :
    crypt 0x3041314232433344#64 (keySchedule 0x3132333435363738#64 16) = 0x58A14BCE6B0CC490#64 := by decide +kernel

/-! ## The register window (95_test_vectors.md 2.10, 2.11) -/

theorem test_fkey_hi_keeps_low_half : readResponse 32 0x28 (busWrite 32 0x28 0xFFFFA092#32 State.reset) = .data 0x0000A092#32 := by decide
theorem test_key_hi_reads_zero :
    readResponse 32 0x10 (busWrite 32 0x10 0x13345779#32 State.reset) = .data 0#32 ∧
      (busWrite 32 0x10 0x13345779#32 State.reset).key = 0x1334577900000000#64 := by decide
theorem test_misaligned_read : readResponse 32 0x02 State.reset = .busError 2 := by decide
theorem test_status_write_f7 : busWrite 32 0x08 0xFFFFFFF7#32 { State.reset with ovr := true } = { State.reset with ovr := true } := by decide
theorem test_reads_zero_under_reset : readResponse 32 0x00 { State.reset with resetAsserted := true } = .data 0#32 := by decide

/-! ## Host operations at bus addresses: BASE has no known value, so these are proved, not computed -/

/-- A host state with one operation to do and the engine in flight. -/
def hostNext (s : State) (op : HostOp) : State := { s with host := [op], schedule := [.host] }

theorem step_hostNext_wr {s : State} {off : Nat} {v : Word} (h : off < Config.windowBytes) (h4 : legalAccess 32 off = true)
    (hr : s.resetAsserted = false) :
    step (hostNext s (wr off v)) = .next (writeReg (regAt off) v { s with host := [], schedule := [] }) := by
  rw [step_host (rest := []) rfl]
  simp [hostTurn, hostNext, wr, hostOp, hostWrite, windowOffset_base h, busWrite, hr, h4]

/-! ## Every statement with hypotheses: they can be met -/

theorem test_meets_DecodeOfEncode : (Instr.keysched 15 31).wellFormed = true ∧ (Instr.rkread 15).wellFormed = true := by decide
theorem test_meets_EncodeOfDecode : decode 0x00001FF1#32 = .ok (.keysched 15 31) := by decide
theorem test_meets_IllegalWords : decode (inFlight State.reset 0x6#32 0 0 0).pend.cmd = .error (.reservedOpcode 6) := by decide
theorem test_meets_AssembledCommandsDecode :
    (AsmCommand.keysched (some 16) (some 15)).valid = true ∧ (AsmCommand.rkread 15).valid = true := by decide
theorem test_meets_NopCompletes : (inFlight State.reset 0 0 0 0).resetAsserted = false ∧ (inFlight State.reset 0 0 0 0).busy = true ∧
    State.reset.resetAsserted = false ∧ State.reset.busy = false := by decide
theorem test_meets_NopCompletes_illegal :
    (inFlight State.reset 0x10#32 0 0 0).pend.cmd.extractLsb 3 0 = 0 ∧ (inFlight State.reset 0x10#32 0 0 0).pend.cmd ≠ 0 := by decide
theorem test_meets_ResetState : ({ forced with schedule := [.releaseReset] } : State).schedule = .releaseReset :: [] ∧
    forced.resetAsserted = false := ⟨rfl, rfl⟩
theorem test_meets_KeyschedForcekey_default : ((0 = 0 ∧ 16 = 16) ∨ (1 ≤ 0 ∧ 0 ≤ 16 ∧ 16 = 0)) := by decide
theorem test_meets_KeyschedForcekey_16 : ((16 = 0 ∧ 16 = 16) ∨ (1 ≤ 16 ∧ 16 ≤ 16 ∧ 16 = 16)) := by decide
theorem test_meets_KeyschedForcekey_1 : ((1 = 0 ∧ 1 = 16) ∨ (1 ≤ 1 ∧ 1 ≤ 16 ∧ 1 = 1)) := by decide
theorem test_meets_RkreadReadsTheSlot : forced.kv = true ∧ (15 : Fin 16).val < forced.nr.toNat := by decide
theorem test_meets_EncryptDecrypt : forced.kv = true ∧ forced.nr.toNat ≤ 16 := by decide
theorem test_meets_FailingCommand :
    completeCommand (inFlight forced 0x03#32 0 0 0) = .next (complete .invalidBlock (inFlight forced 0x03#32 0 0 0)) ∧
      (complete .invalidBlock (inFlight forced 0x03#32 0 0 0)).errcode ≠ .ok := ⟨rfl, by decide⟩
theorem test_meets_CommandFrame : exec (.rkread 15) forced = .next (complete .ok (setDout 0x0000A09222000000#64 forced)) := by rfl
theorem test_meets_OperandsComeFromPend :
    completeCommand (inFlight forced 0x05#32 0 0 0) = .next (complete .ok (setDout 0x0000A09222000000#64 (inFlight forced 0x05#32 0 0 0))) := by
  rfl

theorem forced_slot {i : Nat} (h : i < 16) : rkSlot forced i = 0xA09222000000#48 := by
  simp only [rkSlot, forced, Vector.toList_replicate, List.getD_eq_getElem?_getD, List.getElem?_replicate]
  simp [h]

theorem forced_scheduleInv : ScheduleInv forced where
  unloaded := by simp [forced]
  loaded := by intro _; decide
  repeated := by
    intro _ i hi
    have h16 : forced.nr.toNat = 16 := rfl
    rw [forced_slot (h16 ▸ hi), forced_slot (by omega)]
  cleared := by
    intro i h1 h2
    have h16 : forced.nr.toNat = 16 := rfl
    omega

theorem test_meets_ForcedSchedule : ScheduleInv forced ∧ forced.degen = true := ⟨forced_scheduleInv, rfl⟩

theorem test_meets_LastSlotIsUnrotated :
    ∃ u v : State, exec (.keysched 8 0) forced = .next u ∧ v.rk = u.rk ∧ v.nr = u.nr ∧ v.kv = u.kv :=
  ⟨_, _, rfl, rfl, rfl, rfl⟩
theorem test_meets_DecryptUndoesEncrypt :
    ∃ u a c b : State, 16 ≤ 16 ∧ exec (.keysched 8 16) forced = .next u ∧ a.rk = u.rk ∧ a.nr = u.nr ∧ a.kv = u.kv ∧
      exec (.encrypt 8) a = .next c ∧ b.rk = u.rk ∧ b.nr = u.nr ∧ b.kv = u.kv ∧ b.pend.din = c.dout :=
  let u := complete .ok (loadSchedule (keySchedule forced.pend.key 16) false forced)
  let c := complete .ok (setDout (crypt u.pend.din (scheduleKeys u)) u)
  ⟨u, u, c, { u with pend := { u.pend with din := c.dout } }, by decide, rfl, rfl, rfl, rfl, rfl, rfl, rfl, rfl, rfl⟩
theorem test_meets_RoundKeysByCumulativeRotation : 16 ≤ 16 ∧ 15 < 16 := by decide
theorem test_meets_ShorterScheduleIsPrefix : 0 ≤ 16 ∧ 16 ≤ 16 := by decide
theorem test_meets_ParityBits : 0x0101010101010101#64 &&& 0xFEFEFEFEFEFEFEFE#64 = 0 := by decide
theorem test_meets_BusByOffset : State.reset.resetAsserted = false ∧ (8 ≠ 32 ∨ 0x3C % 4 ≠ 0) ∧ (32 ≠ 32 ∨ 0x3F % 4 ≠ 0) := by decide
theorem test_meets_ReadsHaveNoSideEffects : 32 = 32 ∧ 0x3C % 4 = 0 := by decide
theorem test_meets_CmdWrite :
    State.reset.resetAsserted = false ∧ State.reset.busy = false ∧ (inFlight forced 0 0 0 0).busy = true := by decide
theorem test_meets_SoftReset : State.reset.resetAsserted = false ∧ (0x00000001#32).getLsbD 0 = true := by decide
theorem test_meets_WindowIsAtBase_inside : 0x3F < 0x40 := by decide
theorem test_meets_WindowIsAtBase_outside : Config.base + 0x40 < Config.base ∨ Config.base + 0x40 ≤ Config.base + 0x40 := .inr (Nat.le_refl _)
theorem test_meets_LoadPseudoInstructions :
    let s : State := { State.reset with host := loadKey 0x133457799BBCDFF1#64 ++ [], schedule := [.host, .host] }
    s.resetAsserted = false ∧ s.schedule = [.host, .host] ∧ s.host = loadKey 0x133457799BBCDFF1#64 ++ [] := ⟨rfl, rfl, rfl⟩
theorem test_meets_LoadPseudoInstructions_blk :
    let s : State := { State.reset with host := loadBlk 0x0123456789ABCDEF#64 ++ [], schedule := [.host, .host] }
    s.resetAsserted = false ∧ s.schedule = [.host, .host] ∧ s.host = loadBlk 0x0123456789ABCDEF#64 ++ [] := ⟨rfl, rfl, rfl⟩
theorem test_meets_LoadPseudoInstructions_fkey :
    let s : State := { State.reset with host := loadFkey 0xA09222000000#48 ++ [], schedule := [.host, .host] }
    s.resetAsserted = false ∧ s.schedule = [.host, .host] ∧ s.host = loadFkey 0xA09222000000#48 ++ [] := ⟨rfl, rfl, rfl⟩
theorem test_meets_ResultReadsDout :
    let s : State := { forced with host := readResult ++ [.wait], schedule := [.host, .host] }
    s.resetAsserted = false ∧ s.schedule = [.host, .host] ∧ s.host = readResult ++ [.wait] := ⟨rfl, rfl, rfl⟩
theorem test_meets_StepRuns_ok :
    engineCompletes (inFlight forced 0x81#32 0 0 0) = true ∧ decode (inFlight forced 0x81#32 0 0 0).pend.cmd = .ok (.keysched 8 0) := by decide
theorem test_meets_StepRuns_fair :
    engineCompletes { inFlight forced 0x81#32 0 0 0 with schedule := [] } = true := by decide
theorem test_meets_StepRuns_illegal :
    engineCompletes (inFlight forced 0x6#32 0 0 0) = true ∧ decode (inFlight forced 0x6#32 0 0 0).pend.cmd = .error (.reservedOpcode 6) := by decide
theorem test_meets_StepRuns_idle :
    ({ forced with schedule := [.engine, .host] } : State).schedule = .engine :: [.host] ∧ forced.busy = false := ⟨rfl, rfl⟩
theorem test_meets_PlacedWordRunsNext : decode 0x000F0005#32 = .ok (.rkread 15) := by decide

theorem forced_inv : Inv forced := ⟨forced_scheduleInv, ⟨by decide, by decide, by decide⟩⟩

theorem inFlight_forced_inv (w : Word) (key din : Block) (fkey : RoundKey) : Inv (inFlight forced w key din fkey) :=
  ⟨scheduleInv_congr forced_scheduleInv rfl rfl rfl rfl, ⟨fun _ => rfl, fun _ => rfl, fun h => by cases h⟩⟩

theorem test_meets_EveryStepKeepsScheduleInv :
    ScheduleInv (inFlight forced 0 0 0 0) ∧ step (inFlight forced 0 0 0 0) = .next (complete .ok (afterTurn (inFlight forced 0 0 0 0))) :=
  ⟨(inFlight_forced_inv 0 0 0 0).schedule, rfl⟩
theorem test_meets_EveryStepKeepsStatusInv :
    StatusInv (inFlight forced 0 0 0 0) ∧ step (inFlight forced 0 0 0 0) = .next (complete .ok (afterTurn (inFlight forced 0 0 0 0))) :=
  ⟨(inFlight_forced_inv 0 0 0 0).status, rfl⟩
/-- The step is the completion of a KEYSCHED, and the schedule does change. -/
theorem test_meets_ScheduleChange :
    ∃ t, step (inFlight forced 0x81#32 0 0 0) = .next t ∧ t.degen ≠ forced.degen ∧ engineCompletes (inFlight forced 0x81#32 0 0 0) = true :=
  ⟨_, rfl, by decide, rfl⟩
/-- The step is the completion of an RKREAD, and DOUT does change. -/
theorem test_meets_DoutChange : seen (·.dout) (step (inFlight forced 0x05#32 0 0 0)) = some 0x0000A09222000000#64 ∧ forced.dout = 0 := by decide
/-- The step is a reset, and both change. -/
theorem test_meets_ScheduleAndDoutReset :
    seen (fun t => (t.kv, t.dout)) (step { forced with dout := 1, schedule := [.assertReset] }) = some (false, 0) ∧
      resetNext { forced with dout := 1, schedule := [.assertReset] } = true := by decide
theorem test_meets_InFlightReads : StatusInv (inFlight forced 0 0 0 0) ∧ (inFlight forced 0 0 0 0).busy = true :=
  ⟨(inFlight_forced_inv 0 0 0 0).status, rfl⟩
theorem test_meets_InFlightStep :
    let s : State := { inFlight forced 0 0 0 0 with schedule := [.host] }
    s.busy = true ∧ step s = .next (afterTurn s) ∧ (afterTurn s).busy = true := ⟨rfl, rfl, rfl⟩
/-- OVR set by a dropped CMD write. -/
theorem test_meets_OverrunSet :
    ∃ t, step (hostNext (inFlight forced 0 0 0 0) (wr 0x04 0x82#32)) = .next t ∧ forced.ovr = false ∧ t.ovr = true :=
  ⟨_, step_hostNext_wr (by decide) rfl rfl, rfl, rfl⟩
/-- OVR cleared by a STATUS write. -/
theorem test_meets_OverrunClear :
    ∃ t, step (hostNext { forced with ovr := true } (wr 0x08 0x8#32)) = .next t ∧ t.ovr = false :=
  ⟨_, step_hostNext_wr (by decide) rfl rfl, rfl⟩
theorem test_meets_HostFault :
    let s := observe (.busError 2) forced
    State.reset.resetAsserted = false ∧ hostFaulted s = true ∧ step s = .next s := ⟨rfl, rfl, rfl⟩
theorem test_meets_ResetInput :
    ({ inFlight forced 0 0 0 0 with schedule := [.assertReset, .host] } : State).schedule = .assertReset :: [.host] ∧
      ({ forced with schedule := [.releaseReset] } : State).schedule = .releaseReset :: [] ∧
      (assertReset forced).resetAsserted = true := ⟨rfl, rfl, rfl⟩
/-- The step is a completion, of an RKREAD. -/
theorem test_meets_KeyLeaves :
    ∃ t, step (inFlight forced 0x05#32 3 0 0) = .next t ∧
      ∀ len rnd, decode (inFlight forced 0x05#32 3 0 0).pend.cmd = .ok (.keysched len rnd) → engineCompletes (inFlight forced 0x05#32 3 0 0) = false := by
  refine ⟨_, rfl, fun len rnd h => ?_⟩
  have hd : decode (inFlight forced 0x05#32 3 0 0).pend.cmd = .ok (.rkread 0) := by decide
  rw [hd] at h
  cases h
theorem test_meets_AcceptedCommandCompletes :
    let s : State := { inFlight forced 0x81#32 0 0 0 with schedule := [.host, .engine], host := [.wait] }
    s.busy = true ∧ s.resetAsserted = false ∧ (∀ a ∈ s.schedule, a = .host ∨ a = .engine) ∧
      (∀ op ∈ s.host, inWindow op = true ∧ isSoftReset op = false) := by
  refine ⟨rfl, rfl, ?_, ?_⟩ <;> decide
theorem test_meets_WaitLoopEnds : ({ forced with host := .wait :: readResult } : State).host = .wait :: readResult := rfl
theorem test_meets_EveryLatencyOccurs :
    let s : State := { inFlight forced 0x81#32 0 0 0 with schedule := List.replicate 3 .host ++ [.engine] }
    s.busy = true ∧ s.resetAsserted = false ∧ s.host = [] ∧ s.schedule = List.replicate 3 .host ++ [.engine] := ⟨rfl, rfl, rfl, rfl⟩
theorem test_meets_EveryLatencyOccurs_zero :
    let s : State := inFlight forced 0x81#32 0 0 0
    s.busy = true ∧ s.resetAsserted = false ∧ s.host = [] ∧ s.schedule = List.replicate 0 .host ++ [.engine] := ⟨rfl, rfl, rfl, rfl⟩
theorem test_meets_SecondCmdWrite :
    let s : State := { inFlight forced 0x81#32 0 0 0 with host := [wr 0x04 0x82#32], schedule := [.host] }
    let s' : State := { s with schedule := [.engine, .host] }
    s.busy = true ∧ s.resetAsserted = false ∧ s.host = wr 0x04 0x82#32 :: [] ∧ s.schedule = .host :: [] ∧
      s'.schedule = .engine :: .host :: [] := ⟨rfl, rfl, rfl, rfl, rfl⟩

end Sys2Proof.Tests
end

section
/-! PROOFS. How long a command stays in flight (00_scope.md R8): the interleaving is the schedule's, so a host with nothing left to do and
`n` host turns before the engine's give a latency of exactly `n`. -/

namespace Sys2Proof.Machine

open Sys2Proof.Safety

/-- The turn of a host with nothing left to do only uses up its entry of the schedule (log 16). -/
theorem step_host_idle {s : State} {rest : List Turn} (hidle : s.host = []) (hs : s.schedule = .host :: rest) :
    step s = .next { s with schedule := rest } := by
  rw [step_host hs]
  simp [hostTurn, hidle]

/-- So do any number of its turns in a row. -/
theorem run_host_idle {m : Nat} {s : State} {rest : List Turn} (hidle : s.host = [])
    (hs : s.schedule = List.replicate m .host ++ rest) : run m s = .next { s with schedule := rest } := by
  induction m generalizing s with
  | zero =>
    obtain rfl : s.schedule = rest := hs
    rfl
  | succ m ih =>
    rw [List.replicate_succ, List.cons_append] at hs
    rw [run_succ (step_host_idle hidle hs)]
    exact ih hidle rfl

/-- A completion step ends the flight, whatever the command and its result (R84). -/
theorem step_ends_flight {s : State} (h : engineCompletes s = true) :
    ∃ t, step s = .next t ∧ t.busy = false ∧ t.done = true := by
  obtain ⟨t, ht, hbusy, hdone, -⟩ := completeCommand_next (afterTurn s)
  exact ⟨t, (step_of_engineCompletes h).trans ht, hbusy, hdone⟩

/-- Settles O53: the idle host's `n` turns leave the command in flight, and the engine's turn that follows completes it. -/
theorem everyLatencyOccurs : Obligations.EveryLatencyOccurs := by
  intro s n hbusy hreset hidle hs
  constructor
  · intro m hm
    have hsplit : s.schedule = List.replicate m .host ++ (List.replicate (n - m) .host ++ [.engine]) := by
      rw [hs, ← List.append_assoc, List.replicate_append_replicate, Nat.add_sub_cancel' hm]
    exact ⟨_, run_host_idle hidle hsplit, hbusy, rfl⟩
  · have hcompletes : engineCompletes { s with schedule := [.engine] } = true := completionEnabled_iff.mpr ⟨hbusy, hreset⟩
    obtain ⟨t, hstep, hdone⟩ := step_ends_flight hcompletes
    exact ⟨t, by rw [run_add (run_host_idle hidle hs), run_succ hstep, run_zero], hdone⟩

end Sys2Proof.Machine
end

section
/-! PROOFS. What every step keeps of the engine's state (10_state.md): the schedule invariants (R30), the status bits (R24) and DOUT (R27),
each from the inversion of a step; the frame of a command (R84); and that a reset state meets the invariants. -/

namespace Sys2Proof.Machine

open Sys2Proof.Safety

/-- The state after reset holds the reset values of R200. -/
theorem engineReset_reset : EngineReset State.reset :=
  ⟨rfl, rfl, rfl, rfl, fun i _ => rkSlot_cleared rfl i, rfl, rfl, rfl, rfl, rfl, rfl, rfl⟩

/-- Settles O43: R200's values meet both invariants. -/
theorem resetMeetsInv : Obligations.ResetMeetsInv := inv_of_engineReset engineReset_reset

/-- Settles O16: a command ends by writing nothing, loading a schedule, or setting DOUT, and each of these keeps the rest. -/
theorem commandFrame : Obligations.CommandFrame := by
  intro i s t h
  obtain ⟨code, u, hx, hu⟩ := exec_cases i s
  obtain rfl : complete code u = t := next_inj.mp (hx.symm.trans h)
  obtain rfl | ⟨-, hi, n, -, -, rfl⟩ | ⟨-, hi, n, -, -, rfl⟩ | ⟨-, hi, v, rfl⟩ := hu
  · simp
  all_goals simp [hi]

/-- Only a completion or a reset touches DOUT or the schedule: the host's accesses do not reach them. -/
theorem step_keeps_dout_and_schedule {s t : State} (h : step s = .next t) :
    (engineCompletes s = true ∧ completeCommand (afterTurn s) = .next t) ∨
    (resetNext s = true ∧ EngineReset t) ∨
    (t.dout = s.dout ∧ t.rk = s.rk ∧ t.nr = s.nr ∧ t.kv = s.kv ∧ t.degen = s.degen) := by
  obtain hc | ⟨hr, ht, -⟩ | ⟨-, -, v, ops, rfl⟩ | ⟨-, -, ops, rfl⟩ | ⟨-, ops, rfl⟩ | ⟨ops, key, din, fkey, answers, rfl⟩ :=
    step_effects h
  · exact .inl hc
  · exact .inr (.inl ⟨hr, ht⟩)
  all_goals exact .inr (.inr ⟨rfl, rfl, rfl, rfl, rfl⟩)

/-- A forced load puts one key into every slot it fills (R121). -/
theorem getD_replicate_eq_first (n : Nat) (k : RoundKey) : ∀ i < n, (List.replicate n k).getD i 0 = (List.replicate n k).getD 0 0 := by
  intro i hi
  rw [List.getD_replicate _ hi, List.getD_replicate _ (by omega)]

/-- A completion keeps R30: it leaves the schedule alone or loads 1 to 16 keys, all equal when it marks them as forced. -/
theorem scheduleInv_completion {s t : State} (hs : ScheduleInv s) (h : completeCommand (afterTurn s) = .next t) : ScheduleInv t := by
  obtain ⟨code, u, rfl, hu⟩ := completion_effects h
  suffices ScheduleInv u from scheduleInv_congr this rfl rfl rfl rfl
  obtain rfl | ⟨-, -, n, h1, h16, rfl⟩ | ⟨-, -, n, h1, h16, rfl⟩ | ⟨-, -, v, rfl⟩ := hu
  · exact scheduleInv_congr hs rfl rfl rfl rfl
  · have hlen := keySchedule_length s.pend.key h16
    exact scheduleInv_loadSchedule _ _ _ (by omega) (by omega) nofun
  · have hlen : (List.replicate n s.pend.fkey).length = n := List.length_replicate
    exact scheduleInv_loadSchedule _ _ _ (by omega) (by omega) fun _ i hi => getD_replicate_eq_first n _ i (hlen ▸ hi)
  · exact scheduleInv_congr hs rfl rfl rfl rfl

/-- Settles O41: completions keep R30, resets establish it, and no other step touches the schedule. -/
theorem everyStepKeepsScheduleInv : Obligations.EveryStepKeepsScheduleInv := by
  intro s t hs h
  obtain ⟨-, hc⟩ | ⟨-, hr⟩ | ⟨-, hrk, hnr, hkv, hdegen⟩ := step_keeps_dout_and_schedule h
  · exact scheduleInv_completion hs hc
  · exact (inv_of_engineReset hr).schedule
  · exact scheduleInv_congr hs hrk hnr hkv hdegen

/-- The status invariant depends on the status bits, KV and the reset input only. -/
theorem statusInv_congr {s t : State} (hs : StatusInv s) (hbusy : t.busy = s.busy) (hdone : t.done = s.done)
    (herr : t.errcode = s.errcode) (hkv : t.kv = s.kv) (hreset : t.resetAsserted = s.resetAsserted) : StatusInv t where
  inFlight := by rw [hbusy, hdone]; exact hs.inFlight
  notDone := by rw [hdone, herr]; exact hs.notDone
  underReset := by rw [hreset, hbusy, hdone, hkv]; exact hs.underReset

/-- An event of the host that the engine does not ignore happens with the reset input released (R201). -/
theorem hostDoesNext_released {p : HostOp → Bool} {s : State} (h : hostDoesNext p s = true) : s.resetAsserted = false := by
  simp only [hostDoesNext, Bool.and_eq_true, Bool.not_eq_true'] at h
  exact h.1

/-- A completion with the reset input released leaves BUSY 0 and DONE 1, which meets the status invariant. -/
theorem statusInv_completion {s t : State} (hreset : s.resetAsserted = false) (h : completeCommand (afterTurn s) = .next t) :
    StatusInv t := by
  obtain ⟨u, hu, hbusy, hdone, -, -, -, hra, -⟩ := completeCommand_next (afterTurn s)
  obtain rfl : u = t := next_inj.mp (hu.symm.trans h)
  exact ⟨by simp [hbusy], by simp [hdone], by simp [hra, hreset]⟩

/-- An accepted command is in flight without DONE or a code (R83). -/
theorem statusInv_acceptCommand {s : State} (hreset : s.resetAsserted = false) (w : Word) : StatusInv (acceptCommand w s) :=
  ⟨fun _ => rfl, fun _ => rfl, by simp [hreset]⟩

/-- Settles O42: a completion, a reset and an acceptance each set the status bits whole, and no other step changes them but OVR. -/
theorem everyStepKeepsStatusInv : Obligations.EveryStepKeepsStatusInv := by
  intro s t hs h
  obtain ⟨hc, he⟩ | ⟨-, hr, -⟩ | ⟨hd, -, v, ops, rfl⟩ | ⟨-, -, ops, rfl⟩ | ⟨-, ops, rfl⟩ | ⟨ops, key, din, fkey, answers, rfl⟩ :=
    step_effects h
  · exact statusInv_completion (engineCompletes_enabled hc).2 he
  · exact (inv_of_engineReset hr).status
  · have hreset : s.resetAsserted = false := hostDoesNext_released hd
    exact statusInv_acceptCommand (s := { s with schedule := s.schedule.tail, host := ops }) hreset v
  all_goals exact statusInv_congr hs rfl rfl rfl rfl rfl

/-- Settles O45: of what a completion can do, only the OK end of a cipher command or RKREAD writes DOUT. -/
theorem onlyCipherRkreadAndResetChangeDout : Obligations.OnlyCipherRkreadAndResetChangeDout := by
  intro s t h
  obtain ⟨hc, he⟩ | ⟨hr, -⟩ | ⟨hdout, -⟩ := step_keeps_dout_and_schedule h
  · obtain ⟨code, u, rfl, hu⟩ := completion_effects he
    obtain rfl | ⟨-, -, n, -, -, rfl⟩ | ⟨-, -, n, -, -, rfl⟩ | ⟨hok, hi, -⟩ := hu
    · exact .inl (complete_dout _ _)
    · exact .inl (by simp)
    · exact .inl (by simp)
    · exact .inr (.inl ⟨hc, hok, hi⟩)
  · exact .inr (.inr hr)
  · exact .inl hdout

end Sys2Proof.Machine
end

section
/-! PROOFS. What a completion reads (10_state.md R31, 70_reset_and_hazards.md R212): the loaded schedule and PEND. An update of the state
outside what a command reads and writes commutes with every command. -/

namespace Sys2Proof.Machine

/-- `g` changes nothing that a completion reads, KEYSCHED's key apart, and commutes with everything a completion writes. -/
structure OutsideCompletion (g : State → State) : Prop where
  rk : ∀ s, (g s).rk = s.rk
  nr : ∀ s, (g s).nr = s.nr
  kv : ∀ s, (g s).kv = s.kv
  cmd : ∀ s, (g s).pend.cmd = s.pend.cmd
  din : ∀ s, (g s).pend.din = s.pend.din
  fkey : ∀ s, (g s).pend.fkey = s.pend.fkey
  complete : ∀ code s, complete code (g s) = g (complete code s)
  setDout : ∀ v s, setDout v (g s) = g (setDout v s)
  loadSchedule : ∀ keys forced s, loadSchedule keys forced (g s) = g (loadSchedule keys forced s)

/-- Such an update before a command shows as the same update after it; for KEYSCHED it must leave PEND.KEY alone too. -/
theorem exec_outside {g : State → State} (hg : OutsideCompletion g) {i : Instr} {s t : State}
    (hkey : ∀ len rnd, i = .keysched len rnd → (g s).pend.key = s.pend.key) (h : exec i s = .next t) :
    exec i (g s) = .next (g t) := by
  have hkeys : scheduleKeys (g s) = scheduleKeys s := scheduleKeys_congr (hg.rk s) (hg.nr s)
  cases i with
  | nop =>
    obtain rfl := next_inj.mp h
    exact congrArg _ (hg.complete _ _)
  | keysched len rnd =>
    simp only [exec, execKeysched, hkey len rnd rfl, succeed_eq, fail_eq, hg.loadSchedule, hg.complete] at h ⊢
    split at h
    · rw [if_pos ‹_›, next_inj.mp h]
    · rw [if_neg ‹_›]
      split at h <;> rw [next_inj.mp h]
  | encrypt len =>
    simp only [exec, execEncrypt, hg.kv, hg.din, hkeys, succeed_eq, fail_eq, hg.setDout, hg.complete] at h ⊢
    split_ifs at h ⊢ <;> rw [next_inj.mp h]
  | decrypt len =>
    simp only [exec, execDecrypt, hg.kv, hg.din, hkeys, succeed_eq, fail_eq, hg.setDout, hg.complete] at h ⊢
    split_ifs at h ⊢ <;> rw [next_inj.mp h]
  | forcekey rnd =>
    simp only [exec, execForcekey, hg.fkey, succeed_eq, fail_eq, hg.loadSchedule, hg.complete] at h ⊢
    split at h <;> rw [next_inj.mp h]
  | rkread idx =>
    simp only [exec, execRkread, hg.kv, hg.nr, rkSlot_congr (hg.rk s), succeed_eq, fail_eq, hg.setDout, hg.complete] at h ⊢
    split_ifs at h ⊢ <;> rw [next_inj.mp h]

/-- The same for a whole completion, an ILLEGAL word's among them. -/
theorem completeCommand_outside {g : State → State} (hg : OutsideCompletion g) {s t : State}
    (hkey : ∀ len rnd, decode s.pend.cmd = .ok (.keysched len rnd) → (g s).pend.key = s.pend.key)
    (h : completeCommand s = .next t) : completeCommand (g s) = .next (g t) := by
  rcases hd : decode s.pend.cmd with e | i
  · rw [completeCommand_illegal hd] at h
    rw [completeCommand_illegal ((hg.cmd s).symm ▸ hd), hg.complete, next_inj.mp h]
  · rw [completeCommand_ok hd] at h
    rw [completeCommand_ok ((hg.cmd s).symm ▸ hd)]
    exact exec_outside hg (fun len rnd hi => hkey len rnd (hi ▸ hd)) h

/-- Other values in the operand registers. -/
def setOperands (k d : Block) (f : RoundKey) (s : State) : State := { s with key := k, din := d, fkey := f }

/-- No command reads or writes the operand registers (R31). -/
theorem outsideCompletion_setOperands (k d : Block) (f : RoundKey) : OutsideCompletion (setOperands k d f) where
  rk _ := rfl
  nr _ := rfl
  kv _ := rfl
  cmd _ := rfl
  din _ := rfl
  fkey _ := rfl
  complete _ _ := rfl
  setDout _ _ := rfl
  loadSchedule _ _ _ := rfl

/-- Settles O17: the operand registers are outside what a completion reads and writes, PEND.KEY included. -/
theorem operandsComeFromPend : Obligations.OperandsComeFromPend := fun _ _ k d f h =>
  completeCommand_outside (outsideCompletion_setOperands k d f) (fun _ _ _ => rfl) h

end Sys2Proof.Machine
end

section
/-! PROOFS. Secrecy of the master key (10_state.md R23, 60_exceptions.md R195): every operation of the engine, the host and the reset input,
KEYSCHED's completion apart, takes states that differ only in KEY and PEND.KEY to such states. One commuting lemma per operation, from the
register write up to the step. -/

namespace Sys2Proof.Machine

open Sys2Proof.Safety

/-- The state with another master key and another snapshot of it. -/
def rekey (k p : Block) (s : State) : State := { s with key := k, pend := { s.pend with key := p } }

/-- `f` never lets the master key show: after it, too, states that differed only in KEY and PEND.KEY differ only there. -/
def KeyBlind (f : State → Host.Outcome State Fault Refusal) : Prop :=
  ∀ (s t : State) (k p : Block), f s = .next t → ∃ k' p', f (rekey k p s) = .next (rekey k' p' t)

/-- A total update is key-blind when it takes re-keyed states to re-keyed states. -/
theorem keyBlind_next {f : State → State} (h : ∀ s k p, ∃ k' p', f (rekey k p s) = rekey k' p' (f s)) :
    KeyBlind fun s => .next (f s) := by
  intro s t k p ht
  obtain ⟨k', p', e⟩ := h s k p
  exact ⟨k', p', next_inj.mpr (e.trans (congrArg _ (next_inj.mp ht)))⟩

/-- KEY is write-only: no read tells two keys apart (R23). -/
theorem readReg_rekey (r : Reg) (k p : Block) (s : State) : readReg r (rekey k p s) = readReg r s := by
  cases r <;> rfl

theorem readResponse_rekey (width off : Nat) (k p : Block) (s : State) :
    readResponse width off (rekey k p s) = readResponse width off s := by
  simp only [readResponse, readReg_rekey]
  rfl

theorem busRead_rekey (width off : Nat) (k p : Block) (s : State) :
    busRead width off (rekey k p s) = rekey k p (busRead width off s) := by
  simp only [busRead, readResponse_rekey]
  rfl

/-- A reset wipes both keys, so it forgets which they were. -/
theorem resetEngine_rekey (k p : Block) (s : State) : resetEngine (rekey k p s) = resetEngine s := rfl

theorem assertReset_rekey (k p : Block) (s : State) : assertReset (rekey k p s) = assertReset s := rfl

theorem releaseReset_rekey (k p : Block) (s : State) : releaseReset (rekey k p s) = releaseReset s := rfl

/-- Re-keying with the keys a state has changes nothing. -/
theorem rekey_self (s : State) : rekey s.key s.pend.key s = s := rfl

/-- An acceptance snapshots the key it finds (R83). -/
theorem acceptCommand_rekey (w : Word) (k p : Block) (s : State) :
    acceptCommand w (rekey k p s) = rekey k k (acceptCommand w s) := rfl

theorem writeReg_rekey (r : Reg) (v : Word) (s : State) (k p : Block) :
    ∃ k' p', writeReg r v (rekey k p s) = rekey k' p' (writeReg r v s) := by
  cases r with
  | cmd =>
    rcases hb : s.busy with _ | _
    · exact ⟨k, k, by simp only [writeReg, offerCommand_idle hb, offerCommand_idle (s := rekey k p s) hb, acceptCommand_rekey]⟩
    · exact ⟨k, p, by simp only [writeReg, offerCommand_busy hb, offerCommand_busy (s := rekey k p s) hb]; rfl⟩
  | status =>
    refine ⟨k, p, ?_⟩
    simp only [writeReg, writeStatus]
    split <;> rfl
  | ctrl =>
    simp only [writeReg, writeCtrl]
    split
    · exact ⟨_, _, (resetEngine_rekey k p s).trans (rekey_self _).symm⟩
    · exact ⟨k, p, rfl⟩
  | keyHi => exact ⟨setHiWord k v, p, rfl⟩
  | keyLo => exact ⟨setLoWord k v, p, rfl⟩
  | dinHi | dinLo | fkeyHi | fkeyLo | id | doutHi | doutLo | reserved => exact ⟨k, p, rfl⟩

theorem busWrite_rekey (width off : Nat) (v : Word) (s : State) (k p : Block) :
    ∃ k' p', busWrite width off v (rekey k p s) = rekey k' p' (busWrite width off v s) := by
  have hreset : (rekey k p s).resetAsserted = s.resetAsserted := rfl
  simp only [busWrite, hreset]
  split_ifs
  · exact ⟨k, p, rfl⟩
  · exact writeReg_rekey (regAt off) v s k p
  · exact ⟨k, p, rfl⟩

theorem keyBlind_hostWrite (addr width : Nat) (v : Word) : KeyBlind (hostWrite addr width v) := by
  unfold hostWrite
  cases windowOffset addr with
  | none => exact fun _ _ _ _ h => nomatch h
  | some off => exact keyBlind_next (busWrite_rekey width off v)

theorem keyBlind_hostRead (addr width : Nat) : KeyBlind (hostRead addr width) := by
  unfold hostRead
  cases windowOffset addr with
  | none => exact fun _ _ _ _ h => nomatch h
  | some off => exact keyBlind_next fun s k p => ⟨k, p, busRead_rekey width off k p s⟩

/-- Whether WAIT stays is decided by the answer of a read. -/
theorem keyBlind_hostWait : KeyBlind hostWait := by
  intro s t k p h
  refine ⟨k, p, ?_⟩
  unfold hostWait at h ⊢
  rw [readResponse_rekey]
  split_ifs at h ⊢
  · rw [← next_inj.mp h]
    exact congrArg _ (busRead_rekey 32 0x08 k p { s with host := .wait :: s.host })
  · rw [← next_inj.mp h, busRead_rekey]

theorem keyBlind_hostOp (op : HostOp) : KeyBlind (hostOp op) := by
  cases op with
  | write addr width v => exact keyBlind_hostWrite addr width v
  | read addr width => exact keyBlind_hostRead addr width
  | wait => exact keyBlind_hostWait

theorem keyBlind_hostTurn : KeyBlind hostTurn := by
  intro s t k p h
  have hhost : (rekey k p s).host = s.host := rfl
  unfold hostTurn at h ⊢
  rw [hhost]
  split at h
  · exact ⟨k, p, by rw [next_inj.mp h]⟩
  · next op rest _ => exact keyBlind_hostOp op { s with host := rest } t k p h

/-- No command but KEYSCHED reads either key. -/
theorem outsideCompletion_rekey (k p : Block) : OutsideCompletion (rekey k p) where
  rk _ := rfl
  nr _ := rfl
  kv _ := rfl
  cmd _ := rfl
  din _ := rfl
  fkey _ := rfl
  complete _ _ := rfl
  setDout _ _ := rfl
  loadSchedule _ _ _ := rfl

/-- Which event is next does not depend on the keys. -/
theorem engineCompletes_rekey (k p : Block) (s : State) : engineCompletes (rekey k p s) = engineCompletes s := rfl

/-- A completion step of any command but KEYSCHED keeps the difference as it is. -/
theorem completion_rekey {s t : State} (k p : Block) (hc : engineCompletes s = true)
    (hks : ∀ len rnd, decode s.pend.cmd ≠ .ok (.keysched len rnd)) (h : step s = .next t) :
    step (rekey k p s) = .next (rekey k p t) := by
  rw [step_of_engineCompletes hc] at h
  rw [step_of_engineCompletes (engineCompletes_rekey k p s ▸ hc)]
  exact completeCommand_outside (s := afterTurn s) (outsideCompletion_rekey k p) (fun len rnd hd => absurd hd (hks len rnd)) h

/-- Where no completion is enabled the engine's turn only uses up its entry of the schedule. -/
theorem step_engine_idle {s : State} {rest : List Turn} (hs : s.schedule = .engine :: rest) (hc : completionEnabled s = false) :
    step s = .next { s with schedule := rest } := by
  rw [step_engine hs]
  have hc : completionEnabled { s with schedule := rest } = false := hc
  simp [engineTurn, hc]

/-- A step that is no completion is a turn of the host, of the idle engine or of the reset input, each of them key-blind. -/
theorem noncompletion_rekey {s t : State} (k p : Block) (hc : engineCompletes s = false) (h : step s = .next t) :
    ∃ k' p', step (rekey k p s) = .next (rekey k' p' t) := by
  rcases hs : s.schedule with _ | ⟨turn, rest⟩
  · have hc : completionEnabled s = false := by simpa [engineCompletes, hs] using hc
    rw [step_fair_host hs hc] at h
    rw [step_fair_host (s := rekey k p s) hs hc]
    exact keyBlind_hostTurn s t k p h
  · cases turn with
    | host =>
      rw [step_host hs] at h
      rw [step_host (s := rekey k p s) hs]
      exact keyBlind_hostTurn { s with schedule := rest } t k p h
    | engine =>
      have hc : completionEnabled s = false := by simpa [engineCompletes, hs] using hc
      rw [step_engine_idle hs hc] at h
      rw [step_engine_idle (s := rekey k p s) hs hc, ← next_inj.mp h]
      exact ⟨k, p, rfl⟩
    | assertReset =>
      rw [step_assertReset hs] at h
      rw [step_assertReset (s := rekey k p s) hs, ← next_inj.mp h]
      exact ⟨_, _, congrArg _ (rekey_self _).symm⟩
    | releaseReset =>
      rw [step_releaseReset hs] at h
      rw [step_releaseReset (s := rekey k p s) hs, ← next_inj.mp h]
      exact ⟨_, _, congrArg _ (rekey_self _).symm⟩

/-- Settles O50: whether the step is a completion or not, it takes re-keyed states to re-keyed states. -/
theorem keyLeavesOnlyThroughKeysched : Obligations.KeyLeavesOnlyThroughKeysched := by
  intro s t k p h hks
  rcases hc : engineCompletes s with _ | _
  · exact noncompletion_rekey k p hc h
  · exact ⟨k, p, completion_rekey k p hc (fun len rnd hd => absurd hc (by simp [hks len rnd hd])) h⟩

end Sys2Proof.Machine
end

section
/-! PROOFS. The register window as the host sees it (20_memory.md): the window at BASE (R53), reads without side effects (R57), illegal
accesses and their record (R55), and what STATUS reads while a command is in flight (R62). -/

namespace Sys2Proof.Machine

open Sys2Proof.Safety

/-! ## The window at BASE -/

/-- A write inside the window is the bus write at its offset. -/
theorem hostWrite_base {off : Nat} (h : off < Config.windowBytes) (width : Nat) (v : Word) (s : State) :
    hostWrite (Config.base + off) width v s = .next (busWrite width off v s) := by
  simp only [hostWrite, windowOffset_base h]

/-- A read inside the window is the bus read at its offset. -/
theorem hostRead_base {off : Nat} (h : off < Config.windowBytes) (width : Nat) (s : State) :
    hostRead (Config.base + off) width s = .next (busRead width off s) := by
  simp only [hostRead, windowOffset_base h]

theorem hostWrite_outside {addr : Nat} (h : windowOffset addr = none) (width : Nat) (v : Word) (s : State) :
    hostWrite addr width v s = .fault (.outsideWindow addr) := by
  simp only [hostWrite, h]

theorem hostRead_outside {addr : Nat} (h : windowOffset addr = none) (width : Nat) (s : State) :
    hostRead addr width s = .fault (.outsideWindow addr) := by
  simp only [hostRead, h]

/-- Settles O35: the window offset of an address decides what a host access is. -/
theorem windowIsAtBase : Obligations.WindowIsAtBase := by
  refine ⟨Nat.mul_mod_right Config.windowBytes Config.windowIndex, fun s off width v hoff => ?_, fun s addr width v haddr => ?_⟩
  · exact ⟨hostWrite_base hoff width v s, hostRead_base hoff width s⟩
  · have hnone : windowOffset addr = none := windowOffset_eq_none.mpr haddr
    exact ⟨hostWrite_outside hnone width v s, hostRead_outside hnone width s⟩

/-! ## Legal and illegal accesses -/

theorem legalAccess_iff {width off : Nat} : legalAccess width off = true ↔ width = 32 ∧ off % 4 = 0 := by
  simp [legalAccess]

theorem legalAccess_eq_false_iff {width off : Nat} : legalAccess width off = false ↔ width ≠ 32 ∨ off % 4 ≠ 0 := by
  rw [← Bool.not_eq_true, legalAccess_iff, not_and_or]

theorem readResponse_underReset {s : State} (hreset : s.resetAsserted = true) (width off : Nat) :
    readResponse width off s = .data 0 := by
  simp [readResponse, hreset]

theorem readResponse_legal {s : State} {width off : Nat} (hreset : s.resetAsserted = false) (hlegal : legalAccess width off = true) :
    readResponse width off s = .data (readReg (regAt off) s) := by
  simp [readResponse, hreset, hlegal]

theorem readResponse_illegal {s : State} {width off : Nat} (hreset : s.resetAsserted = false) (hlegal : legalAccess width off = false) :
    readResponse width off s = .busError off := by
  simp [readResponse, hreset, hlegal]

theorem busWrite_illegal {s : State} {width off : Nat} (hreset : s.resetAsserted = false) (hlegal : legalAccess width off = false)
    (v : Word) : busWrite width off v s = observe (.busError off) s := by
  simp [busWrite, hreset, hlegal]

/-! ## Reads -/

/-- No register shows what the host has observed. -/
@[simp] theorem readReg_observe (r : Reg) (answer : BusResponse) (s : State) : readReg r (observe answer s) = readReg r s := by
  cases r <;> rfl

@[simp] theorem readResponse_observe (width off : Nat) (answer : BusResponse) (s : State) :
    readResponse width off (observe answer s) = readResponse width off s := by
  simp only [readResponse, readReg_observe, observe_resetAsserted]

/-- Settles O32: a read only grows the observation, which no read shows. -/
theorem readsHaveNoSideEffects : Obligations.ReadsHaveNoSideEffects := by
  intro s width off
  refine ⟨⟨_, rfl⟩, fun width' off' => readResponse_observe width' off' _ s, fun hwidth halign => ?_⟩
  cases hreset : s.resetAsserted with
  | true => exact ⟨_, readResponse_underReset hreset width off⟩
  | false => exact ⟨_, readResponse_legal hreset (legalAccess_iff.mpr ⟨hwidth, halign⟩)⟩

/-! ## The record of a host fault -/

/-- An answer of the bus, once seen, stays in the record; a step only appends to it. -/
theorem step_observed_append {s t : State} (h : step s = .next t) : ∃ answers, t.observed = s.observed ++ answers := by
  obtain ⟨-, hc⟩ | ⟨-, -, hobs⟩ | ⟨-, -, v, ops, rfl⟩ | ⟨-, -, ops, rfl⟩ | ⟨-, ops, rfl⟩ | ⟨_, _, _, _, answers, rfl⟩ := step_effects h
  · obtain ⟨u, hu, -, -, -, -, hobs, -⟩ := completeCommand_next (afterTurn s)
    obtain rfl : u = t := next_inj.mp (hu.symm.trans hc)
    exact ⟨[], by simp [hobs]⟩
  · exact ⟨[], by simp [hobs]⟩
  · exact ⟨[], by simp⟩
  · exact ⟨[], by simp⟩
  · exact ⟨[], by simp⟩
  · exact ⟨answers, rfl⟩

theorem hostFaulted_observe_busError (off : Nat) (s : State) : hostFaulted (observe (.busError off) s) = true := by
  simp [hostFaulted, isBusError]

theorem step_keeps_hostFaulted {s t : State} (hs : hostFaulted s = true) (h : step s = .next t) : hostFaulted t = true := by
  obtain ⟨answers, hobs⟩ := step_observed_append h
  have hs : s.observed.any isBusError = true := hs
  simp only [hostFaulted, hobs, List.any_append, hs, Bool.true_or]

theorem not_goodFinal_of_hostFaulted {s : State} (h : hostFaulted s = true) : goodFinal s = false := by
  simp [goodFinal, h]

/-- Settles O48: an illegal access only records its error, and the record is never lost. -/
theorem hostFaultIsNeverGood : Obligations.HostFaultIsNeverGood := by
  refine ⟨fun s width off v hreset hbad => ?_, fun s t hs h => ?_⟩
  · have hlegal : legalAccess width off = false := legalAccess_eq_false_iff.mpr hbad
    have hwrite := busWrite_illegal hreset hlegal v
    have hread : busRead width off s = observe (.busError off) s := by rw [busRead, readResponse_illegal hreset hlegal]
    exact ⟨hwrite, hread, hwrite ▸ hostFaulted_observe_busError off s⟩
  · have ht := step_keeps_hostFaulted hs h
    exact ⟨ht, not_goodFinal_of_hostFaulted ht⟩

/-! ## STATUS while a command is in flight -/

/-- Two fields put together are the upper one shifted, ORed with the lower one. -/
theorem setWidth_append_eq_or {m n : Nat} (w : Nat) (hi : BitVec m) (lo : BitVec n) :
    (hi ++ lo).setWidth w = (hi.setWidth w <<< n) ||| lo.setWidth w := by
  ext i hw
  by_cases hn : i < n
  · simp [BitVec.getLsbD_append, hn]
  · simp [BitVec.getLsbD_append, hn, BitVec.getLsbD_of_ge lo i (by omega)]

/-- STATUS by the formula of R173, the zero fields left out. -/
theorem statusWord_eq_or (s : State) : statusWord s =
    (s.errcode.bits.setWidth 32 <<< 16) ||| (s.nr.setWidth 32 <<< 8) ||| ((BitVec.ofBool s.degen).setWidth 32 <<< 5) |||
      ((BitVec.ofBool s.kv).setWidth 32 <<< 4) ||| ((BitVec.ofBool s.ovr).setWidth 32 <<< 3) |||
      ((BitVec.ofBool (errFlag s)).setWidth 32 <<< 2) ||| ((BitVec.ofBool s.done).setWidth 32 <<< 1) |||
      (BitVec.ofBool s.busy).setWidth 32 := by
  rw [← BitVec.setWidth_eq (statusWord s), statusWord]
  iterate 10 rw [setWidth_append_eq_or]
  simp only [BitVec.shiftLeft_or_distrib, ← BitVec.shiftLeft_add, Nat.reduceAdd, BitVec.setWidth_zero,
    BitVec.zero_shiftLeft, BitVec.zero_or, BitVec.or_zero]

/-- Under the status invariant a command in flight shows no result: neither DONE nor a code. -/
theorem statusWord_inFlight {s : State} (hinv : StatusInv s) (hbusy : s.busy = true) :
    statusWord s = (s.nr.setWidth 32 <<< 8) ||| ((BitVec.ofBool s.degen).setWidth 32 <<< 5) |||
      ((BitVec.ofBool s.kv).setWidth 32 <<< 4) ||| ((BitVec.ofBool s.ovr).setWidth 32 <<< 3) ||| 1#32 := by
  have hdone : s.done = false := hinv.inFlight hbusy
  have hok : s.errcode = .ok := hinv.notDone hdone
  simp [statusWord_eq_or, errFlag, hbusy, hdone, hok, ResultCode.bits]

/-- No command is in flight while reset is asserted (R201). -/
theorem released_of_inFlight {s : State} (hinv : StatusInv s) (hbusy : s.busy = true) : s.resetAsserted = false := by
  by_contra hreset
  have hidle : s.busy = false := (hinv.underReset (by simpa using hreset)).1
  simp [hbusy] at hidle

/-- A step that leaves its command in flight is an overrun, a clearing of OVR, or a change of the operand registers and the host's side:
completions, resets and acceptances are excluded by BUSY. -/
theorem step_inFlight_frame {s t : State} (hs : s.busy = true) (h : step s = .next t) (ht : t.busy = true) :
    t.dout = s.dout ∧ t.rk = s.rk ∧ t.nr = s.nr ∧ t.kv = s.kv ∧ t.degen = s.degen ∧ t.pend = s.pend ∧
    t.done = s.done ∧ t.errcode = s.errcode := by
  obtain ⟨hc, -⟩ | ⟨-, hr, -⟩ | ⟨-, hidle, -⟩ | ⟨-, -, ops, rfl⟩ | ⟨-, ops, rfl⟩ | ⟨_, _, _, _, _, rfl⟩ := step_effects h
  · obtain ⟨u, hu, hidle, -⟩ := step_ends_flight hc
    obtain rfl : u = t := next_inj.mp (hu.symm.trans h)
    simp [hidle] at ht
  · simp [hr.busy] at ht
  · simp [hidle] at hs
  all_goals exact ⟨rfl, rfl, rfl, rfl, rfl, rfl, rfl, rfl⟩

/-- Settles O46: the status invariant fixes BUSY, DONE and ERRCODE in flight, and only a completion, a reset or an acceptance, each of which
begins or ends a flight, changes a result. -/
theorem inFlightReadsAreOld : Obligations.InFlightReadsAreOld := by
  refine ⟨fun s hinv hbusy => ?_, fun s t hs h ht => step_inFlight_frame hs h ht⟩
  calc readResponse 32 0x08 s
      = .data (statusWord s) := readResponse_legal (released_of_inFlight hinv hbusy) (by decide)
    _ = _ := congrArg _ (statusWord_inFlight hinv hbusy)

end Sys2Proof.Machine
end

section
/-! PROOFS. The encoding loses nothing (30_encoding.md R71 to R82): a word decodes to a command exactly when it selects the command's row and
its fields are the command's operands; the word of a well-formed command is the only such word; the assembler makes such words. -/

namespace Sys2Proof

/-! ## What it takes for a word to decode to a command -/

/-- Every word is put together from the six fields of R71. -/
theorem exists_fields (w : Word) : ∃ res2 idx res1 rnd len opc, w = fields res2 idx res1 rnd len opc :=
  ⟨_, _, _, _, _, _, word_eq_fields w⟩

/-- The operands of a command are what the fields of the word hold (R73 to R75). -/
def Instr.OperandsIn (w : Word) : Instr → Prop
  | .nop => True
  | .keysched len rnd => len = fieldLen w ∧ rnd = fieldRnd w
  | .encrypt len => len = fieldLen w
  | .decrypt len => len = fieldLen w
  | .forcekey rnd => rnd = fieldRnd w
  | .rkread idx => idx = fieldIdx w

/-- The mask of every row covers OPC, so a selected row fixes it (R78). -/
theorem fieldOpc_of_selects {w : Word} {i : Instr} (h : i.row.selects w = true) : fieldOpc w = i.row.opc := by
  obtain ⟨res2, idx, res1, rnd, len, opc, rfl⟩ := exists_fields w
  obtain ⟨hnop, hkeysched, hencrypt, hdecrypt, hforcekey, hrkread⟩ := selects_fields res2 idx res1 rnd len opc
  rw [fieldOpc_fields]
  cases i with
  | nop => obtain ⟨-, -, -, -, -, rfl⟩ := hnop.mp h; rfl
  | keysched => obtain ⟨-, -, -, rfl⟩ := hkeysched.mp h; rfl
  | encrypt => obtain ⟨-, -, -, -, rfl⟩ := hencrypt.mp h; rfl
  | decrypt => obtain ⟨-, -, -, -, rfl⟩ := hdecrypt.mp h; rfl
  | forcekey => obtain ⟨-, -, -, -, rfl⟩ := hforcekey.mp h; rfl
  | rkread => obtain ⟨-, -, -, -, rfl⟩ := hrkread.mp h; rfl

/-- R79, the decoder's lines at once: a word decodes to a command when it selects the command's row, with the operands its fields hold. -/
theorem decode_eq_ok_iff {w : Word} {i : Instr} : decode w = .ok i ↔ i.row.selects w = true ∧ i.OperandsIn w := by
  constructor
  · intro h
    unfold decode at h
    split_ifs at h with hnop hkeysched hencrypt hdecrypt hforcekey hrkread <;> cases h
    · exact ⟨hnop.2, trivial⟩
    · exact ⟨hkeysched.2, rfl, rfl⟩
    · exact ⟨hencrypt.2, rfl⟩
    · exact ⟨hdecrypt.2, rfl⟩
    · exact ⟨hforcekey.2, rfl⟩
    · exact ⟨hrkread.2, rfl⟩
  · rintro ⟨hsel, hops⟩
    have hopc : fieldOpc w = i.row.opc := fieldOpc_of_selects hsel
    cases i with
    | nop => exact if_pos ⟨hopc, hsel⟩
    | keysched =>
      obtain ⟨rfl, rfl⟩ := hops
      simp [decode, show fieldOpc w = 1 from hopc, show rowKeysched.selects w = true from hsel]
    | encrypt =>
      obtain rfl := hops
      simp [decode, show fieldOpc w = 2 from hopc, show rowEncrypt.selects w = true from hsel]
    | decrypt =>
      obtain rfl := hops
      simp [decode, show fieldOpc w = 3 from hopc, show rowDecrypt.selects w = true from hsel]
    | forcekey =>
      obtain rfl := hops
      simp [decode, show fieldOpc w = 4 from hopc, show rowForcekey.selects w = true from hsel]
    | rkread =>
      obtain rfl := hops
      simp [decode, show fieldOpc w = 5 from hopc, show rowRkread.selects w = true from hsel]

/-! ## Encoding, then decoding -/

/-- The encoder's format, field by field, with the reserved bits zero (R71). -/
theorem packCommand_eq_fields (opc len rnd idx : Nat) :
    packCommand opc len rnd idx = fields 0 (BitVec.ofNat 4 idx) 0 (BitVec.ofNat 5 rnd) (BitVec.ofNat 4 len) (BitVec.ofNat 4 opc) := rfl

/-- The word of a well-formed command selects the command's row. -/
theorem row_selects_encode : ∀ i : Instr, i.wellFormed = true → i.row.selects (encode i) = true
  | .nop => Laws.EncodesInRow.nop
  | .keysched len rnd => Laws.EncodesInRow.keysched len rnd
  | .encrypt len => Laws.EncodesInRow.encrypt len
  | .decrypt len => Laws.EncodesInRow.decrypt len
  | .forcekey rnd => Laws.EncodesInRow.forcekey rnd
  | .rkread idx => Laws.EncodesInRow.rkread idx

/-- A number that fits its field comes back from it. -/
theorem toNat_ofNat_of_fits {n x : Nat} (h : x < 2 ^ n) : x = (BitVec.ofNat n x).toNat := by
  rw [BitVec.toNat_ofNat, Nat.mod_eq_of_lt h]

/-- The fields of a well-formed command's word hold the command's operands. -/
theorem operandsIn_encode {i : Instr} (h : i.wellFormed = true) : i.OperandsIn (encode i) := by
  cases i with
  | nop => trivial
  | keysched len rnd =>
    simp only [Instr.wellFormed, Bool.and_eq_true, decide_eq_true_eq] at h
    simp only [Instr.OperandsIn, encode, packCommand_eq_fields, fieldLen_fields, fieldRnd_fields]
    exact ⟨toNat_ofNat_of_fits h.1, toNat_ofNat_of_fits h.2⟩
  | encrypt len | decrypt len =>
    simp only [Instr.OperandsIn, encode, packCommand_eq_fields, fieldLen_fields]
    exact toNat_ofNat_of_fits (of_decide_eq_true h)
  | forcekey rnd =>
    simp only [Instr.OperandsIn, encode, packCommand_eq_fields, fieldRnd_fields]
    exact toNat_ofNat_of_fits (of_decide_eq_true h)
  | rkread idx =>
    simp only [Instr.OperandsIn, encode, packCommand_eq_fields, fieldIdx_fields]
    exact toNat_ofNat_of_fits (of_decide_eq_true h)

/-- Settles O2: the word selects the command's row, and its fields hold the operands. -/
theorem decodeOfEncode : Obligations.DecodeOfEncode := fun i h =>
  decode_eq_ok_iff.mpr ⟨row_selects_encode i h, operandsIn_encode h⟩

/-! ## Decoding, then encoding -/

/-- The operands a word holds fit their fields. -/
theorem wellFormed_of_operandsIn {w : Word} {i : Instr} (h : i.OperandsIn w) : i.wellFormed = true := by
  have hlen : fieldLen w < 16 := BitVec.isLt _
  have hrnd : fieldRnd w < 32 := BitVec.isLt _
  have hidx : fieldIdx w < 16 := BitVec.isLt _
  cases i with
  | nop => rfl
  | keysched len rnd =>
    obtain ⟨rfl, rfl⟩ := h
    simp [Instr.wellFormed, hlen, hrnd]
  | encrypt len | decrypt len | forcekey rnd | rkread idx =>
    obtain rfl := h
    simp [Instr.wellFormed, hlen, hrnd, hidx]

/-- A word that selects a command's row and holds its operands has nothing else in it: the row's mask covers every bit outside them. -/
theorem encode_of_selects {w : Word} {i : Instr} (hsel : i.row.selects w = true) (hops : i.OperandsIn w) : encode i = w := by
  obtain ⟨res2, idx, res1, rnd, len, opc, rfl⟩ := exists_fields w
  obtain ⟨hnop, hkeysched, hencrypt, hdecrypt, hforcekey, hrkread⟩ := selects_fields res2 idx res1 rnd len opc
  cases i with
  | nop =>
    obtain ⟨rfl, rfl, rfl, rfl, rfl, rfl⟩ := hnop.mp hsel
    rfl
  | keysched =>
    obtain ⟨rfl, rfl, rfl, rfl⟩ := hkeysched.mp hsel
    obtain ⟨rfl, rfl⟩ := hops
    simp [encode, packCommand_eq_fields]
  | encrypt =>
    obtain ⟨rfl, rfl, rfl, rfl, rfl⟩ := hencrypt.mp hsel
    obtain rfl := hops
    simp [encode, packCommand_eq_fields]
  | decrypt =>
    obtain ⟨rfl, rfl, rfl, rfl, rfl⟩ := hdecrypt.mp hsel
    obtain rfl := hops
    simp [encode, packCommand_eq_fields]
  | forcekey =>
    obtain ⟨rfl, rfl, rfl, rfl, rfl⟩ := hforcekey.mp hsel
    obtain rfl := hops
    simp [encode, packCommand_eq_fields]
  | rkread =>
    obtain ⟨rfl, rfl, rfl, rfl, rfl⟩ := hrkread.mp hsel
    obtain rfl := hops
    simp [encode, packCommand_eq_fields]

/-- Settles O3: row and operands determine the word. -/
theorem encodeOfDecode : Obligations.EncodeOfDecode := by
  intro w i h
  obtain ⟨hsel, hops⟩ := decode_eq_ok_iff.mp h
  exact ⟨encode_of_selects hsel hops, wellFormed_of_operandsIn hops⟩

/-! ## The lines of R79 and the words of R81 -/

theorem selects_iff {r : OpcodeRow} {w : Word} : r.selects w = true ↔ w &&& r.mask = r.matchBits := beq_iff_eq

/-- Settles O4: each line is the decoder's rule for one row; NOP's mask is every bit. -/
theorem decodeSelectsByMaskAndMatch : Obligations.DecodeSelectsByMaskAndMatch := by
  have line (w : Word) (i : Instr) : decode w = .ok i ↔ w &&& i.row.mask = i.row.matchBits ∧ i.OperandsIn w :=
    decode_eq_ok_iff.trans (and_congr_left' selects_iff)
  intro w
  refine ⟨?_, fun len rnd => line w (.keysched len rnd), fun len => line w (.encrypt len), fun len => line w (.decrypt len),
    fun rnd => line w (.forcekey rnd), fun idx => line w (.rkread idx)⟩
  have hmask : w &&& 0xFFFFFFFF#32 = w := BitVec.and_allOnes
  have hnop : decode w = .ok .nop ↔ w &&& 0xFFFFFFFF#32 = 0#32 ∧ True := line w .nop
  rwa [hmask, and_true] at hnop

/-- Settles O1: evaluation of the decoder on the nine words. -/
theorem decodeOfWrittenWords : Obligations.DecodeOfWrittenWords := by
  unfold Obligations.DecodeOfWrittenWords
  decide

/-! ## The assembler (R81, R82) -/

/-- The encoder's format as an OR of its shifted fields (R71). -/
theorem packCommand_eq_or (opc len rnd idx : Nat) : packCommand opc len rnd idx =
    ((BitVec.ofNat 4 idx).setWidth 32 <<< 16) ||| ((BitVec.ofNat 5 rnd).setWidth 32 <<< 8) |||
      ((BitVec.ofNat 4 len).setWidth 32 <<< 4) ||| (BitVec.ofNat 4 opc).setWidth 32 := by
  rw [← BitVec.setWidth_eq (packCommand opc len rnd idx), packCommand]
  iterate 5 rw [Machine.setWidth_append_eq_or]
  simp only [BitVec.shiftLeft_or_distrib, ← BitVec.shiftLeft_add, Nat.reduceAdd, BitVec.setWidth_zero, BitVec.zero_shiftLeft,
    BitVec.zero_or, BitVec.or_zero]

/-- A round count below 32 is one OR into bits 12:8 of the word without it. -/
theorem packCommand_rnd {rnd : Nat} (h : rnd < 32) (opc len : Nat) :
    packCommand opc len rnd 0 = packCommand opc len 0 0 ||| (BitVec.ofNat 32 rnd <<< 8) := by
  simp [packCommand_eq_or, BitVec.setWidth_ofNat_of_le_of_lt (show 5 ≤ 32 by decide) h]
  ac_rfl

/-- A slot number below 16 is one OR into bits 19:16 of the word without it. -/
theorem packCommand_idx {idx : Nat} (h : idx < 16) (opc : Nat) :
    packCommand opc 0 0 idx = packCommand opc 0 0 0 ||| (BitVec.ofNat 32 idx <<< 16) := by
  simp [packCommand_eq_or, BitVec.setWidth_ofNat_of_le_of_lt (show 4 ≤ 32 by decide) h, BitVec.or_comm]

end Sys2Proof

namespace Sys2Proof.Machine

theorem rndOf_some {n : Nat} (h : n ≤ 15) : rndOf (some n) = n := if_neg (by omega)

/-- A round count that can be written fits RND, 16 as 0 (R81). -/
theorem rndOf_lt {count : Option Nat} (h : roundsSpelled count = true) : rndOf count < 32 := by
  cases count with
  | none => decide
  | some n =>
    simp only [roundsSpelled, Bool.and_eq_true, decide_eq_true_eq] at h
    simp only [rndOf]
    split <;> omega

/-- A length that can be written fits LEN, an omitted one as 8 (R82). -/
theorem lenOf_lt {len : Option Nat} (h : lenSpelled len = true) : lenOf len < 16 := by
  cases len with
  | none => decide
  | some n => exact of_decide_eq_true h

/-- The ranges of R82 are inside the fields of R71. -/
theorem wellFormed_assemble {c : AsmCommand} (h : c.valid = true) : (assemble c).wellFormed = true := by
  cases c with
  | nop => rfl
  | keysched count len =>
    obtain ⟨hcount, hlen⟩ := Bool.and_eq_true_iff.mp h
    simp [assemble, Instr.wellFormed, lenOf_lt hlen, rndOf_lt hcount]
  | encrypt len | decrypt len => simp [assemble, Instr.wellFormed, lenOf_lt h]
  | forcekey count => simp [assemble, Instr.wellFormed, rndOf_lt h]
  | rkread idx => exact h

/-- Settles O7: what can be written is well formed, and so survives encoding. -/
theorem assembledCommandsDecode : Obligations.AssembledCommandsDecode := fun c h =>
  have hwf := wellFormed_assemble h
  ⟨hwf, decodeOfEncode (assemble c) hwf⟩

/-- KEYSCHED and FORCEKEY use RND only as the round count it stands for (R74). -/
theorem exec_congr_rounds {rnd rnd' : Nat} (h : rounds rnd = rounds rnd') (len : Nat) (s : State) :
    exec (.keysched len rnd) s = exec (.keysched len rnd') s ∧ exec (.forcekey rnd) s = exec (.forcekey rnd') s := by
  simp only [exec, execKeysched, execForcekey, h, and_self]

/-- Settles O6: a count or slot is ORed into the default word; the words without one are evaluated; RND 16 and 0 stand for one count. -/
theorem canonicalWords : Obligations.CanonicalWords := by
  have hcount {n : Nat} (hn : n ≤ 15) (opc len : Nat) :
      packCommand opc len (rndOf (some n)) 0 = packCommand opc len 0 0 ||| (BitVec.ofNat 32 n <<< 8) := by
    rw [rndOf_some hn, packCommand_rnd (by omega)]
  refine ⟨by decide, by decide, fun n _ hn => hcount hn 1 8, by decide, by decide, by decide, by decide, fun n _ hn => hcount hn 4 0,
    by decide, fun i hi => packCommand_idx (by omega) 5, by decide, by decide, fun s => exec_congr_rounds rfl 8 s⟩

end Sys2Proof.Machine
end

section
/-! PROOFS. Command words at the engine (30_encoding.md R82 to R84): the host's register accesses as steps, the two outcomes of a CMD write, the
engine's step as the command it decodes, and that an accepted command completes. -/

namespace Sys2Proof.Machine

open Sys2Proof.Safety

/-! ## The host's accesses, one step each -/

theorem busWrite_legal {s : State} {width off : Nat} (hreset : s.resetAsserted = false) (hlegal : legalAccess width off = true)
    (v : Word) : busWrite width off v s = writeReg (regAt off) v s := by
  simp [busWrite, hreset, hlegal]

/-- On the host's turn its next operation is performed. -/
theorem step_hostOp {s : State} {rest : List Turn} {op : HostOp} {ops : List HostOp} (hs : s.schedule = .host :: rest)
    (hhost : s.host = op :: ops) : step s = hostOp op { s with host := ops, schedule := rest } := by
  rw [step_host hs]
  simp only [hostTurn, hhost]

/-- Two steps, one after the other. -/
theorem run_two {s u t : State} (hfirst : step s = .next u) (hsecond : step u = .next t) : run 2 s = .next t :=
  (run_succ hfirst).trans (run_succ hsecond)

/-- No register shows the host's program or the schedule. -/
theorem readReg_hostSide (r : Reg) (ops : List HostOp) (turns : List Turn) (s : State) :
    readReg r { s with host := ops, schedule := turns } = readReg r s := by
  cases r <;> rfl

section
variable {s : State} {off : Nat} {ops : List HostOp} {rest : List Turn}
  (hreset : s.resetAsserted = false) (hs : s.schedule = .host :: rest)
  (hoff : off < Config.windowBytes) (hlegal : legalAccess 32 off = true)
include hreset hs hoff hlegal

/-- `wr` on the host's turn writes the register at its offset. -/
theorem step_wr {v : Word} (hhost : s.host = wr off v :: ops) :
    step s = .next (writeReg (regAt off) v { s with host := ops, schedule := rest }) := by
  rw [step_hostOp hs hhost]
  exact (hostWrite_base hoff 32 v _).trans (congrArg _ (busWrite_legal (by exact hreset) hlegal v))

/-- `rd` on the host's turn observes the register at its offset. -/
theorem step_rd (hhost : s.host = rd off :: ops) :
    step s = .next (observe (.data (readReg (regAt off) s)) { s with host := ops, schedule := rest }) := by
  have hanswer : readResponse 32 off { s with host := ops, schedule := rest } = .data (readReg (regAt off) s) := by
    rw [← readReg_hostSide (regAt off) ops rest s]
    exact readResponse_legal hreset hlegal
  rw [step_hostOp hs hhost, ← hanswer]
  exact hostRead_base hoff 32 _

end

/-- Settles O36: the two writes each replace one word of the register. -/
theorem loadPseudoInstructions : Obligations.LoadPseudoInstructions := by
  intro s rest hreset hs
  refine ⟨fun k hhost => ?_, fun b hhost => ?_, fun f hhost => ?_⟩
  · exact (run_two (step_wr hreset hs (by decide) rfl hhost) (step_wr (by exact hreset) rfl (by decide) rfl rfl)).trans
      (congrArg (fun x => Host.Outcome.next { s with key := x, host := rest, schedule := [] }) (setLo_setHi s.key k))
  · exact (run_two (step_wr hreset hs (by decide) rfl hhost) (step_wr (by exact hreset) rfl (by decide) rfl rfl)).trans
      (congrArg (fun x => Host.Outcome.next { s with din := x, host := rest, schedule := [] }) (setLo_setHi s.din b))
  · exact (run_two (step_wr hreset hs (by decide) rfl hhost) (step_wr (by exact hreset) rfl (by decide) rfl rfl)).trans
      (congrArg (fun x => Host.Outcome.next { s with fkey := x, host := rest, schedule := [] }) (setFkey_both s.fkey f))

/-- Settles O37: the first read leaves DOUT as it is for the second. -/
theorem resultReadsDout : Obligations.ResultReadsDout := by
  intro s rest hreset hs hhost
  refine ⟨hiWord s.dout, loWord s.dout, hiWord_append_loWord s.dout, ?_⟩
  refine (run_two (step_rd hreset hs (by decide) rfl hhost) (step_rd hreset rfl (by decide) rfl rfl)).trans ?_
  simp [observe, regAt, readReg]

/-- Settles O33: BUSY decides whether the word is dropped or taken into PEND. -/
theorem cmdWriteIsAcceptedOrDropped : Obligations.CmdWriteIsAcceptedOrDropped := by
  intro s w hreset
  have hwrite : busWrite 32 0x04 w s = offerCommand w s := busWrite_legal hreset rfl w
  exact ⟨fun hbusy => hwrite.trans (offerCommand_busy hbusy), fun hidle => hwrite.trans (offerCommand_idle hidle)⟩

/-! ## The engine's step -/

/-- Settles O39: a completion step completes PEND's command; under reset or idle none is enabled. -/
theorem stepRunsTheDecodedCommand : Obligations.StepRunsTheDecodedCommand := by
  refine ⟨fun s i hc hd => ?_, fun s e hc hd => ?_, fun s rest hs hoff => step_engine_idle hs ?_⟩
  · exact (step_of_engineCompletes hc).trans (completeCommand_ok (s := afterTurn s) hd)
  · exact (step_of_engineCompletes hc).trans (completeCommand_illegal (s := afterTurn s) hd)
  · obtain hidle | hreset := hoff
    · simp [completionEnabled, hidle]
    · simp [completionEnabled, hreset]

/-- Settles O40: placing a word makes the engine's completion of it the next step. -/
theorem placedWordRunsNext : Obligations.PlacedWordRunsNext := by
  intro s w i hd
  have hw : BitVec.ofNat 32 (w.toNat % 2 ^ 32) = w := by rw [Nat.mod_eq_of_lt w.isLt, BitVec.ofNat_toNat, BitVec.setWidth_eq]
  refine ⟨by rw [decodeTableWord, hw, hd]; rfl, ?_⟩
  rw [State.withFetchWord, hw]
  exact stepRunsTheDecodedCommand.1 (placeCommand w s) i rfl hd

/-! ## An accepted command completes -/

theorem writeReg_host (r : Reg) (v : Word) (s : State) : (writeReg r v s).host = s.host := by
  obtain ⟨-, -, h⟩ | ⟨-, -, h⟩ | ⟨_, _, _, _, h⟩ := writeReg_cases r v s <;> rw [h] <;> rfl

theorem busWrite_host (width off : Nat) (v : Word) (s : State) : (busWrite width off v s).host = s.host := by
  obtain ⟨-, h⟩ | ⟨-, -, h⟩ | ⟨-, -, h⟩ := busWrite_cases width off v s <;> rw [h]
  · exact writeReg_host _ _ _
  · rfl

/-- An operation inside the window is performed: it is done with, or it is a WAIT that stays next. -/
theorem hostOp_performed {op : HostOp} (h : inWindow op = true) (s : State) :
    ∃ t, hostOp op s = .next t ∧ (t.host = s.host ∨ t.host = op :: s.host) := by
  cases op with
  | write addr width v =>
    obtain ⟨off, hoff⟩ := Option.isSome_iff_exists.mp h
    exact ⟨_, by simp only [hostOp, hostWrite, hoff], .inl (busWrite_host width off v s)⟩
  | read addr width =>
    obtain ⟨off, hoff⟩ := Option.isSome_iff_exists.mp h
    exact ⟨busRead width off s, by simp only [hostOp, hostRead, hoff], .inl rfl⟩
  | wait =>
    simp only [hostOp, hostWait]
    split
    · exact ⟨_, rfl, .inr rfl⟩
    · exact ⟨_, rfl, .inl rfl⟩

/-- The turn of a host that stays inside the window is performed, and leaves no new operation to do. -/
theorem step_host_performed {s : State} {rest : List Turn} (hs : s.schedule = .host :: rest)
    (hwindow : ∀ op ∈ s.host, inWindow op = true) : ∃ t, step s = .next t ∧ t.host ⊆ s.host := by
  rcases hhost : s.host with _ | ⟨op, ops⟩
  · exact ⟨_, step_host_idle hhost hs, by simp [hhost]⟩
  · obtain ⟨t, ht, hops⟩ := hostOp_performed (hwindow op (by simp [hhost])) { s with host := ops, schedule := rest }
    refine ⟨t, (step_hostOp hs hhost).trans ht, ?_⟩
    obtain h | h := hops <;> simp [h]

/-- A step that is neither a completion nor a reset leaves a command in flight in flight. -/
theorem step_keeps_flight {s t : State} (hbusy : s.busy = true) (hc : engineCompletes s = false) (hr : resetNext s = false)
    (h : step s = .next t) : t.busy = true ∧ t.resetAsserted = s.resetAsserted ∧ t.schedule = s.schedule.tail := by
  obtain ⟨hc', -⟩ | ⟨hr', -⟩ | ⟨-, hidle, -⟩ | ⟨-, -, ops, rfl⟩ | ⟨-, ops, rfl⟩ | ⟨_, _, _, _, _, rfl⟩ := step_effects h
  · simp [hc] at hc'
  · simp [hr] at hr'
  · simp [hbusy] at hidle
  all_goals exact ⟨hbusy, rfl, rfl⟩

/-- On a turn of a host with no soft reset left to do nothing resets the engine. -/
theorem resetNext_host {s : State} {rest : List Turn} (hs : s.schedule = .host :: rest)
    (hsoft : ∀ op ∈ s.host, isSoftReset op = false) : resetNext s = false := by
  cases hhost : s.host with
  | nil => simp [resetNext, resetInputNext, hostDoesNext, hostOpNext, hs, hhost]
  | cons op ops => simp [resetNext, resetInputNext, hostDoesNext, hostOpNext, hs, hhost, hsoft op (by simp [hhost])]

/-- A command in flight, with no reset to come and the host inside the window (R84, R201). -/
structure Underway (s : State) : Prop where
  busy : s.busy = true
  released : s.resetAsserted = false
  turns : ∀ a ∈ s.schedule, a = .host ∨ a = .engine
  ops : ∀ op ∈ s.host, inWindow op = true ∧ isSoftReset op = false

theorem Underway.enabled {s : State} (hu : Underway s) : completionEnabled s = true :=
  completionEnabled_iff.mpr ⟨hu.busy, hu.released⟩

/-- In `t` PEND and the schedule fields are as in `s`: the command in flight is the same, and so are the keys it finds. -/
def SameFlight (s t : State) : Prop := t.pend = s.pend ∧ t.rk = s.rk ∧ t.nr = s.nr ∧ t.kv = s.kv ∧ t.degen = s.degen

theorem SameFlight.refl (s : State) : SameFlight s s := ⟨rfl, rfl, rfl, rfl, rfl⟩

theorem SameFlight.trans {s t u : State} (hst : SameFlight s t) (htu : SameFlight t u) : SameFlight s u := by
  obtain ⟨hpend, hrk, hnr, hkv, hdegen⟩ := hst
  rwa [SameFlight, hpend, hrk, hnr, hkv, hdegen] at htu

/-- A turn of the host leaves the command under way, and the same. -/
theorem Underway.step_host {s : State} {rest : List Turn} (hu : Underway s) (hs : s.schedule = .host :: rest) :
    ∃ t, step s = .next t ∧ Underway t ∧ t.schedule = rest ∧ SameFlight s t := by
  obtain ⟨t, ht, hops⟩ := step_host_performed hs fun op hop => (hu.ops op hop).1
  have hc : engineCompletes s = false := by simp [engineCompletes, hs]
  have hr : resetNext s = false := resetNext_host hs fun op hop => (hu.ops op hop).2
  obtain ⟨hbusy, hreleased, hschedule⟩ := step_keeps_flight hu.busy hc hr ht
  obtain ⟨-, hrk, hnr, hkv, hdegen, hpend, -⟩ := step_inFlight_frame hu.busy ht hbusy
  rw [hs, List.tail_cons] at hschedule
  refine ⟨t, ht, ⟨hbusy, hreleased.trans hu.released, fun a ha => ?_, fun op hop => hu.ops op (hops hop)⟩,
    hschedule, hpend, hrk, hnr, hkv, hdegen⟩
  exact hu.turns a (by rw [hs]; exact List.mem_cons_of_mem _ (hschedule ▸ ha))

/-- The completion comes after some turns of the host, at the latest when the schedule is used up; until then the command and the schedule
fields stay as they are. -/
theorem Underway.reaches_completion {s : State} {turns : List Turn} (hu : Underway s) (hs : s.schedule = turns) :
    ∃ n u, n ≤ turns.length ∧ run n s = .next u ∧ engineCompletes u = true ∧ SameFlight s u := by
  induction turns generalizing s with
  | nil => exact ⟨0, s, Nat.le_refl _, rfl, by simp [engineCompletes, hs, hu.enabled], .refl s⟩
  | cons turn rest ih =>
    obtain rfl | rfl : turn = .host ∨ turn = .engine := hu.turns turn (by simp [hs])
    · obtain ⟨t, hstep, ht, hrest, hst⟩ := hu.step_host hs
      obtain ⟨n, u, hn, hrun, hc, htu⟩ := ih ht hrest
      exact ⟨n + 1, u, Nat.succ_le_succ hn, (run_succ hstep).trans hrun, hc, hst.trans htu⟩
    · exact ⟨0, s, Nat.zero_le _, rfl, by simp [engineCompletes, hs, hu.enabled], .refl s⟩

/-- Settles O51: the completion is reached with the accepted command, and ends its flight. -/
theorem acceptedCommandCompletes : Obligations.AcceptedCommandCompletes := by
  intro s hbusy hreset hturns hops
  obtain ⟨n, u, hn, hrun, hc, hpend, hrk, hnr, hkv, hdegen⟩ := Underway.reaches_completion ⟨hbusy, hreset, hturns, hops⟩ rfl
  obtain ⟨t, ht, hidle, hdone⟩ := step_ends_flight hc
  exact ⟨n, u, t, hn, hrun, hc, hpend, hrk, hnr, hkv, hdegen, by rw [run_add hrun, run_succ ht, run_zero], hidle, hdone⟩

end Sys2Proof.Machine
end

section
/-! PROOFS. The key schedule and its commands (40_keyschedule.md): the round keys in closed form and what of the key they depend on (R100 to
R107), then what KEYSCHED, FORCEKEY and RKREAD leave behind (R120 to R122) and what a forced schedule makes of DECRYPT (R151). -/

namespace Sys2Proof.Machine

open Sys2Proof.Safety

/-! ## Rotation of a half -/

/-- Two rotations, one after the other, are one by the sum of the amounts. -/
theorem rotateLeft_rotateLeft {w : Nat} (x : BitVec w) (a b : Nat) : (x.rotateLeft a).rotateLeft b = x.rotateLeft (a + b) := by
  refine BitVec.eq_of_getMsbD_eq fun i hi => ?_
  have hmod : (b + i) % w < w := Nat.mod_lt _ (by omega)
  have hindex : (a + (b + i) % w) % w = (a + b + i) % w := by rw [Nat.add_mod_mod, Nat.add_assoc]
  simp [BitVec.getMsbD_rotateLeft, hi, hmod, hindex]

/-- A rotation by the whole width is none. -/
theorem rotateLeft_width {w : Nat} (x : BitVec w) : x.rotateLeft w = x := by
  refine BitVec.eq_of_getMsbD_eq fun i hi => ?_
  simp [BitVec.getMsbD_rotateLeft, hi, Nat.mod_eq_of_lt hi]

/-- A value of equal bits is the same under every rotation. -/
theorem rotateLeft_fill (w : Nat) (b : Bool) (s : Nat) : (BitVec.fill w b).rotateLeft s = BitVec.fill w b := by
  refine BitVec.eq_of_getMsbD_eq fun i hi => ?_
  simp [BitVec.getMsbD_rotateLeft, BitVec.getMsbD_fill, hi, Nat.mod_lt _ (Nat.zero_lt_of_lt hi)]

/-- `Rotl28` (R12) is the rotation of 28-bit values, at each amount it is used with. -/
theorem rotl28_eq_rotateLeft (x : BitVec 28) {s : Nat} (hs : s < 28) : rotl28 x s = x.rotateLeft s :=
  (BitVec.rotateLeft_eq_rotateLeftAux_of_lt hs).symm

/-! ## The round keys in closed form -/

/-- Both halves rotated within themselves by one amount, which may be a sum of many. -/
def turnHalves (s : Nat) (h : KeyHalves) : KeyHalves := ⟨h.c.rotateLeft s, h.d.rotateLeft s⟩

theorem rotateHalves_eq_turnHalves (h : KeyHalves) {s : Nat} (hs : s < 28) : rotateHalves s h = turnHalves s h := by
  simp [rotateHalves, turnHalves, rotl28_eq_rotateLeft _ hs]

theorem turnHalves_turnHalves (h : KeyHalves) (a b : Nat) : turnHalves b (turnHalves a h) = turnHalves (a + b) h := by
  simp [turnHalves, rotateLeft_rotateLeft]

/-- Every amount of ROT is less than the width of a half. -/
theorem tableROT_lt : ∀ s ∈ tableROT, s < 28 := by decide

/-- Round key r is taken from the halves rotated by the first r + 1 amounts, added up. -/
theorem getElem?_roundKeysFrom {rots : List Nat} (hrots : ∀ s ∈ rots, s < 28) (h : KeyHalves) {r : Nat} (hr : r < rots.length) :
    (roundKeysFrom rots h)[r]? = some (pickRoundKey (turnHalves (rots.take (r + 1)).sum h)) := by
  induction rots generalizing h r with
  | nil => simp at hr
  | cons s rest ih =>
    obtain ⟨hs, hrest⟩ := List.forall_mem_cons.mp hrots
    rw [roundKeysFrom, rotateHalves_eq_turnHalves h hs]
    cases r with
    | zero => simp
    | succ r => simp [ih hrest _ (Nat.lt_of_succ_lt_succ hr), turnHalves_turnHalves]

/-- The same of `KS(key, n)`. -/
theorem getElem?_keySchedule (key : Block) {n r : Nat} (hn : n ≤ 16) (hr : r < n) :
    (keySchedule key n)[r]? = some (pickRoundKey (turnHalves (tableROT.take (r + 1)).sum (splitKey key))) := by
  have hlen : r < (tableROT.take n).length := by simp [tableROT_length]; omega
  have hrots : ∀ s ∈ tableROT.take n, s < 28 := fun s hs => tableROT_lt s (List.mem_of_mem_take hs)
  rw [keySchedule, getElem?_roundKeysFrom hrots _ hlen, List.take_take, Nat.min_eq_left hr]

/-- The amounts of ROT, added up round by round, are the list R103 gives. -/
theorem tableROT_cumulative : ∀ r < 16,
    (tableROT.take (r + 1)).sum = [1, 2, 4, 6, 8, 10, 12, 14, 15, 17, 19, 21, 23, 25, 27, 28].getD r 0 := by decide

/-- Settles O21: the rotations of a half add up. -/
theorem roundKeysByCumulativeRotation : Obligations.RoundKeysByCumulativeRotation := by
  intro key n r hn hr
  rw [getElem?_keySchedule key hn hr, tableROT_cumulative r (by omega)]
  rfl

/-- The round keys for the first amounts are the first round keys. -/
theorem roundKeysFrom_take (n : Nat) (rots : List Nat) (h : KeyHalves) :
    roundKeysFrom (rots.take n) h = (roundKeysFrom rots h).take n := by
  induction rots generalizing n h with
  | nil => simp [roundKeysFrom]
  | cons s rest ih =>
    cases n with
    | zero => rfl
    | succ n => simp [roundKeysFrom, ih]

/-- Settles O22: a shorter schedule runs over the first amounts of ROT. -/
theorem shorterScheduleIsPrefix : Obligations.ShorterScheduleIsPrefix := fun key n hn =>
  ⟨roundKeysFrom_take n tableROT (splitKey key), keySchedule_length key hn⟩

/-! ## The parity bits -/

/-- A permutation depends only on the positions its table names (R11). -/
theorem perm_congr {n : Nat} (m : Nat) {table : List Nat} {v w : BitVec n} (h : ∀ p ∈ table, desBit v p = desBit w p) :
    perm m table v = perm m table w := by
  rw [perm, perm, List.map_congr_left h]

/-- PC1 names no parity position: at each of its positions the mask of the other 56 bits is set. -/
theorem tablePC1_avoids_parity : ∀ p ∈ tablePC1, desBit 0xFEFEFEFEFEFEFEFE#64 p = true := by decide

/-- Settles O23: the key enters the schedule through PC1 alone, which does not see the flipped bits. -/
theorem parityBitsPlayNoPart : Obligations.ParityBitsPlayNoPart := by
  intro key flips n hflips
  have hsame : ∀ p ∈ tablePC1, desBit (key ^^^ flips) p = desBit key p := by
    intro p hp
    have hmask : (0xFEFEFEFEFEFEFEFE#64).getLsbD (64 - p) = true := tablePC1_avoids_parity p hp
    have hflip : flips.getLsbD (64 - p) = false := by
      simpa only [BitVec.getLsbD_and, hmask, Bool.and_true, BitVec.ofNat_eq_ofNat, BitVec.getLsbD_zero] using
        congrArg (fun v : Block => v.getLsbD (64 - p)) hflips
    rw [desBit, desBit, BitVec.getLsbD_xor, hflip, Bool.xor_false]
  rw [keySchedule, keySchedule, splitKey, splitKey, perm_congr 56 hsame]

/-! ## The weak keys -/

/-- Halves that every amount leaves alone give one round key again and again. -/
theorem roundKeysFrom_fixed {rots : List Nat} {h : KeyHalves} (hfixed : ∀ s ∈ rots, rotateHalves s h = h) :
    roundKeysFrom rots h = List.replicate rots.length (pickRoundKey h) := by
  induction rots with
  | nil => rfl
  | cons s rest ih =>
    obtain ⟨hs, hrest⟩ := List.forall_mem_cons.mp hfixed
    rw [roundKeysFrom, hs, ih hrest]
    rfl

/-- The halves of a weak key: each of equal bits. -/
def weakHalves (c d : Bool) : KeyHalves := ⟨BitVec.fill 28 c, BitVec.fill 28 d⟩

theorem rotateHalves_weakHalves (c d : Bool) {s : Nat} (hs : s < 28) : rotateHalves s (weakHalves c d) = weakHalves c d := by
  simp [rotateHalves_eq_turnHalves _ hs, turnHalves, weakHalves, rotateLeft_fill]

/-- PC2 takes 24 bits from each half (R105). -/
theorem pickRoundKey_weakHalves : ∀ c d, pickRoundKey (weakHalves c d) = BitVec.fill 24 c ++ BitVec.fill 24 d := by decide

/-- A key with halves of equal bits has sixteen equal round keys. -/
theorem keySchedule_weak {key : Block} {c d : Bool} (h : splitKey key = weakHalves c d) :
    keySchedule key 16 = List.replicate 16 (BitVec.fill 24 c ++ BitVec.fill 24 d) := by
  have hfixed : ∀ s ∈ tableROT, rotateHalves s (weakHalves c d) = weakHalves c d := fun s hs =>
    rotateHalves_weakHalves c d (tableROT_lt s hs)
  calc keySchedule key 16 = roundKeysFrom tableROT (splitKey key) := rfl
    _ = List.replicate 16 (pickRoundKey (weakHalves c d)) := by rw [h, roundKeysFrom_fixed hfixed, tableROT_length]
    _ = _ := by rw [pickRoundKey_weakHalves]

/-- PC1 takes its first 28 bits into C and the others into D (R101, R102): equal bits there make weak halves. -/
theorem splitKey_weak {key : Block} {c d : Bool} (h : ∀ j < 56, desBit key (tablePC1.getD j 0) = if j < 28 then c else d) :
    splitKey key = weakHalves c d := by
  have hPC1 : (perm 56 tablePC1 key : BitVec 56) = BitVec.fill 28 c ++ BitVec.fill 28 d := by
    refine BitVec.eq_of_getLsbD_eq fun i hi => ?_
    rw [getLsbD_perm 56 tablePC1 key tablePC1_length hi, h _ (by omega), BitVec.getLsbD_append, BitVec.getLsbD_fill,
      BitVec.getLsbD_fill]
    by_cases hlow : i < 28
    · rw [if_neg (by omega)]
      simp [hlow]
    · rw [if_pos (by omega)]
      simp [hlow, show i - 28 < 28 by omega]
  rw [splitKey, hPC1, weakHalves, BitVec.extractLsb'_append_eq_left, BitVec.extractLsb'_append_eq_right]

/-- Settles O24: each of the four keys has halves of equal bits. -/
theorem weakKeys : Obligations.WeakKeys :=
  ⟨keySchedule_weak (c := false) (d := false) (splitKey_weak (by decide)),
    keySchedule_weak (c := true) (d := true) (splitKey_weak (by decide)),
    keySchedule_weak (c := true) (d := false) (splitKey_weak (by decide)),
    keySchedule_weak (c := false) (d := true) (splitKey_weak (by decide))⟩

/-! ## The schedule commands, their successful forms -/

theorem exec_keysched_ok {rnd n : Nat} (h : rounds rnd = some n) (s : State) :
    exec (.keysched 8 rnd) s = .next (complete .ok (loadSchedule (keySchedule s.pend.key n) false s)) := by
  simp [exec, execKeysched, h]

theorem exec_forcekey_ok {rnd n : Nat} (h : rounds rnd = some n) (s : State) :
    exec (.forcekey rnd) s = .next (complete .ok (loadSchedule (List.replicate n s.pend.fkey) true s)) := by
  simp [exec, execForcekey, h]

theorem exec_rkread_ok {s : State} {idx : Nat} (hkv : s.kv = true) (hidx : idx < s.nr.toNat) :
    exec (.rkread idx) s = .next (complete .ok (setDout (0#16 ++ rkSlot s idx) s)) := by
  simp [exec, execRkread, hkv, Nat.not_le.mpr hidx, BitVec.setWidth_eq_append]

/-- A slot below 16 is the entry of the round-key file. -/
theorem rkSlot_eq_getElem (s : State) (i : Fin 16) : rkSlot s i.val = s.rk[i] := by
  simp [rkSlot, List.getD_eq_getElem?_getD]

/-- Settles O11: a slot below NR is read, and below 16 it is an entry of the round-key file. -/
theorem rkreadReadsTheSlot : Obligations.RkreadReadsTheSlot := by
  intro s i hkv hidx
  rw [exec_rkread_ok hkv hidx, rkSlot_eq_getElem]
  rfl

/-- A command that loads n keys leaves them in the first n slots, 0 in the others, NR n, and writes nothing but the schedule and STATUS. -/
theorem loadSchedule_completed {keys : List RoundKey} {n : Nat} (hlen : keys.length = n) (hn : n ≤ 16) (forced : Bool) (s : State) :
    (∀ i, i < n → keys[i]? = some (rkSlot (complete .ok (loadSchedule keys forced s)) i)) ∧
    (∀ i, n ≤ i → i < 16 → rkSlot (complete .ok (loadSchedule keys forced s)) i = 0) ∧
    (complete .ok (loadSchedule keys forced s)).nr.toNat = n ∧
    complete .ok (loadSchedule keys forced s) =
      { s with
        rk := (complete .ok (loadSchedule keys forced s)).rk, nr := (complete .ok (loadSchedule keys forced s)).nr,
        kv := true, degen := forced, busy := false, done := true, errcode := .ok } := by
  have hslot : ∀ i, i < 16 → rkSlot (complete .ok (loadSchedule keys forced s)) i = keys.getD i 0 := fun i hi =>
    (rkSlot_congr (complete_rk _ _) i).trans (rkSlot_loadSchedule keys forced s hi)
  subst hlen
  refine ⟨fun i hi => ?_, fun i hi h16 => ?_, ?_, ?_⟩
  · rw [hslot i (by omega), List.getD_eq_getElem keys 0 hi, List.getElem?_eq_getElem hi]
  · rw [hslot i h16, List.getD_eq_default keys 0 hi]
  · rw [complete_nr, loadSchedule_nr, ofNat5_toNat hn]
  · simp only [complete, loadSchedule]

/-- Settles O9: KEYSCHED loads the n keys of `KS(PEND.KEY, n)`. -/
theorem keyschedLoadsTheSchedule : Obligations.KeyschedLoadsTheSchedule := by
  intro s rnd n h
  have hrounds : rounds rnd = some n := rounds_eq_some.mpr h
  have hn : n ≤ 16 := (rounds_bounds hrounds).2
  exact ⟨_, exec_keysched_ok hrounds s, loadSchedule_completed (keySchedule_length s.pend.key hn) hn false s⟩

/-- Settles O10: FORCEKEY loads n copies of PEND.FKEY. -/
theorem forcekeyLoadsOneKey : Obligations.ForcekeyLoadsOneKey := by
  intro s rnd n h
  have hrounds : rounds rnd = some n := rounds_eq_some.mpr h
  obtain ⟨hkeys, hcleared, hnr, hframe⟩ :=
    loadSchedule_completed (List.length_replicate (a := s.pend.fkey)) (rounds_bounds hrounds).2 true s
  refine ⟨_, exec_forcekey_ok hrounds s, fun i hi => Option.some.inj ?_, hcleared, hnr, hframe⟩
  rw [← hkeys i hi, List.getElem?_replicate_of_lt hi]

/-- The sixteen rotations add up to the width of a half, so the halves of the last round are those of PC1 (90_conflicts.md C1). -/
theorem turnHalves_last (h : KeyHalves) : turnHalves (tableROT.take 16).sum h = h := by
  have hsum : (tableROT.take 16).sum = 28 := by decide
  simp [turnHalves, hsum, rotateLeft_width]

/-- The halves of the key, put together again, are PC1 of the key. -/
theorem pickRoundKey_splitKey (key : Block) :
    pickRoundKey (splitKey key) = perm 48 tablePC2 (perm 56 tablePC1 key : BitVec 56) := by
  rw [pickRoundKey, splitKey, extract_join _ 0 28 28, extract_all]

/-- Settles O19: the last of sixteen round keys is taken from unrotated halves, and RKREAD 15 shows it. -/
theorem lastSlotIsUnrotated : Obligations.LastSlotIsUnrotated := by
  intro s
  obtain ⟨hkeys, -, hnr, -⟩ := loadSchedule_completed (keySchedule_length s.pend.key (Nat.le_refl 16)) (Nat.le_refl 16) false s
  refine ⟨_, exec_keysched_ok rfl s, fun v hrk hvnr hkv => ?_⟩
  have hslot : rkSlot v 15 = perm 48 tablePC2 (perm 56 tablePC1 s.pend.key : BitVec 56) := by
    have hlast := getElem?_keySchedule s.pend.key (Nat.le_refl 16) (r := 15) (by decide)
    rw [turnHalves_last, pickRoundKey_splitKey, hkeys 15 (by decide)] at hlast
    exact (rkSlot_congr hrk 15).trans (Option.some.inj hlast)
  refine ⟨_, exec_rkread_ok hkv ?_, ?_⟩
  · rw [hvnr, hnr]
    decide
  · rw [complete_dout, setDout_dout, hslot]

/-! ## A forced schedule -/

/-- The keys of a schedule marked as forced are copies of the first slot (R30). -/
theorem scheduleKeys_forced {s : State} (hinv : ScheduleInv s) (hdegen : s.degen = true) :
    scheduleKeys s = List.replicate s.nr.toNat (rkSlot s 0) := by
  have hkv : s.kv = true := by
    by_contra hkv
    simp [hinv.unloaded (Bool.eq_false_of_not_eq_true hkv)] at hdegen
  rw [scheduleKeys_eq_slots s (hinv.loaded hkv).2]
  refine List.eq_replicate_iff.mpr ⟨by simp, fun k hk => ?_⟩
  obtain ⟨i, hi, rfl⟩ := List.mem_map.mp hk
  exact hinv.repeated hdegen i (List.mem_range.mp hi)

/-- Settles O18: copies of one key are the same list in either order. -/
theorem forcedScheduleMakesDecryptEncrypt : Obligations.ForcedScheduleMakesDecryptEncrypt := by
  intro s len hinv hdegen
  have hreverse : (scheduleKeys s).reverse = scheduleKeys s := by
    rw [scheduleKeys_forced hinv hdegen, List.reverse_replicate]
  rw [exec, exec, execDecrypt, execEncrypt, hreverse]

end Sys2Proof.Machine
end

section
/-! PROOFS. The cipher and its commands (41_cipher.md): FP and IP, the network run backwards, and complementation (R132, R147, R149), then
what ENCRYPT and DECRYPT leave in DOUT and their round trip (R150 to R152). -/

namespace Sys2Proof.Machine

/-! ## Permutations that undo each other -/

/-- Following `after` and then `before` from any of the n positions leads back to it (R132's `FP[IP[j]] = j`). -/
def Undoes (n : Nat) (after before : List Nat) : Prop :=
  ∀ j < n, 1 ≤ after.getD j 0 ∧ after.getD j 0 ≤ n ∧ before.getD (after.getD j 0 - 1) 0 = j + 1

/-- So the permutation by `after` undoes the one by `before`. -/
theorem perm_perm {n : Nat} {after before : List Nat} (hafter : after.length = n) (hbefore : before.length = n)
    (h : Undoes n after before) (v : BitVec n) : perm n after (perm n before v) = v := by
  refine BitVec.eq_of_getLsbD_eq fun i hi => ?_
  obtain ⟨hpos, hle, hback⟩ := h (n - 1 - i) (by omega)
  have hinner := desBit_perm n before v hbefore (j := after.getD (n - 1 - i) 0 - 1) (by omega)
  rw [Nat.sub_add_cancel hpos, hback] at hinner
  rw [getLsbD_perm n after _ hafter hi, hinner, desBit]
  congr 1
  omega

theorem tableFP_undoes_tableIP : Undoes 64 tableFP tableIP := by
  unfold Undoes
  decide

theorem tableIP_undoes_tableFP : Undoes 64 tableIP tableFP := by
  unfold Undoes
  decide

theorem permFP_permIP (v : Block) : perm 64 tableFP (perm 64 tableIP v : Block) = v :=
  perm_perm tableFP_length tableIP_length tableFP_undoes_tableIP v

theorem permIP_permFP (v : Block) : perm 64 tableIP (perm 64 tableFP v : Block) = v :=
  perm_perm tableIP_length tableFP_length tableIP_undoes_tableFP v

/-- Settles O25: the two tables name each other's positions. -/
theorem finalPermutationInvertsInitial : Obligations.FinalPermutationInvertsInitial := fun v =>
  ⟨permFP_permIP v, permIP_permFP v⟩

/-! ## The round function -/

/-- Settles O26: the three values of R147, computed. -/
theorem roundFunctionExample : Obligations.RoundFunctionExample := by
  unfold Obligations.RoundFunctionExample
  decide

/-! ## The network run backwards -/

/-- The halves exchanged, as at the end of the network (R148). -/
def swapHalves (h : Halves) : Halves := ⟨h.r, h.l⟩

/-- A block made of two halves splits, through IP, into them exchanged. -/
theorem splitBlock_joinHalves (h : Halves) : splitBlock (joinHalves h) = swapHalves h := by
  rw [splitBlock, joinHalves, permIP_permFP, BitVec.extractLsb'_append_eq_left, BitVec.extractLsb'_append_eq_right, swapHalves]

/-- The halves of a block, exchanged, make it up again. -/
theorem joinHalves_swapHalves_splitBlock (block : Block) : joinHalves (swapHalves (splitBlock block)) = block := by
  rw [joinHalves, swapHalves, splitBlock, extract_join _ 0 32 32, extract_all, permFP_permIP]

/-- The rounds run on their exchanged result, last key first, give the exchanged halves they started from. -/
theorem foldl_feistelRound_reverse (keys : List RoundKey) (h : Halves) :
    keys.reverse.foldl feistelRound (swapHalves (keys.foldl feistelRound h)) = swapHalves h := by
  induction keys generalizing h with
  | nil => rfl
  | cons k rest ih =>
    rw [List.reverse_cons, List.foldl_append, List.foldl_cons, List.foldl_cons, ih]
    exact feistelRound_undo h k

/-- `Crypt` under the reversed keys undoes `Crypt`. -/
theorem crypt_crypt_reverse (block : Block) (keys : List RoundKey) : crypt (crypt block keys) keys.reverse = block := by
  rw [crypt, crypt, splitBlock_joinHalves, foldl_feistelRound_reverse, joinHalves_swapHalves_splitBlock]

/-- Settles O27: each round undoes itself between exchanged halves. -/
theorem networkUndoesItself : Obligations.NetworkUndoesItself := crypt_crypt_reverse

/-- Rounds with copies of one key are one round step iterated. -/
theorem foldl_feistelRound_replicate (n : Nat) (k : RoundKey) (h : Halves) :
    (List.replicate n k).foldl feistelRound h = (fun h => feistelRound h k)^[n] h := by
  induction n generalizing h with
  | zero => rfl
  | succ n ih => rw [List.replicate_succ, List.foldl_cons, ih, Function.iterate_succ_apply]

theorem crypt_replicate (block : Block) (n : Nat) (k : RoundKey) :
    crypt block (List.replicate n k) = joinHalves ((fun h => feistelRound h k)^[n] (splitBlock block)) := by
  rw [crypt, foldl_feistelRound_replicate]

/-- Settles O28: copies of one key are the same list in either order. -/
theorem repeatedKeyIsInvolution : Obligations.RepeatedKeyIsInvolution := by
  intro x k
  refine ⟨fun n => ?_, crypt_replicate x 16 k⟩
  have hundo := crypt_crypt_reverse x (List.replicate n k)
  rwa [List.reverse_replicate] at hundo

/-! ## Complementation -/

/-- A permutation whose table names bits of its input commutes with the complement. -/
theorem perm_not {n m : Nat} {table : List Nat} (hm : table.length = m) (hbits : ∀ p ∈ table, n - p < n) (v : BitVec n) :
    perm m table (~~~v) = ~~~perm m table v := by
  refine BitVec.eq_of_getLsbD_eq fun i hi => ?_
  have hindex : m - 1 - i < table.length := by omega
  have hbit : n - table[m - 1 - i] < n := hbits _ (List.getElem_mem hindex)
  rw [BitVec.getLsbD_not, getLsbD_perm m table _ hm hi, getLsbD_perm m table _ hm hi, List.getD_eq_getElem table 0 hindex, desBit, desBit,
    BitVec.getLsbD_not]
  simp [hi, hbit]

theorem permPC1_not (v : Block) : (perm 56 tablePC1 (~~~v) : BitVec 56) = ~~~perm 56 tablePC1 v :=
  perm_not tablePC1_length (by decide) v

theorem permPC2_not (v : BitVec 56) : (perm 48 tablePC2 (~~~v) : RoundKey) = ~~~perm 48 tablePC2 v :=
  perm_not tablePC2_length (by decide) v

theorem permIP_not (v : Block) : (perm 64 tableIP (~~~v) : Block) = ~~~perm 64 tableIP v :=
  perm_not tableIP_length (by decide) v

theorem permFP_not (v : Block) : (perm 64 tableFP (~~~v) : Block) = ~~~perm 64 tableFP v :=
  perm_not tableFP_length (by decide) v

theorem permE_not (v : BitVec 32) : (perm 48 tableE (~~~v) : RoundKey) = ~~~perm 48 tableE v :=
  perm_not tableE_length (by decide) v

theorem rotateLeft_not {w : Nat} (x : BitVec w) (s : Nat) : (~~~x).rotateLeft s = ~~~x.rotateLeft s := by
  refine BitVec.eq_of_getMsbD_eq fun i hi => ?_
  have hmod : (s + i) % w < w := Nat.mod_lt _ (by omega)
  simp [BitVec.getMsbD_rotateLeft, hi, hmod]

/-- A part that lies within the value is complemented with it, the part at its top too. -/
theorem extractLsb'_not {w start len : Nat} (h : start + len ≤ w) (x : BitVec w) :
    (~~~x).extractLsb' start len = ~~~x.extractLsb' start len := by
  refine BitVec.eq_of_getLsbD_eq fun i hi => ?_
  have hinside : start + i < w := by omega
  simp [hi, hinside]

/-- Both halves of the key complemented. -/
def notKeyHalves (h : KeyHalves) : KeyHalves := ⟨~~~h.c, ~~~h.d⟩

theorem splitKey_not (key : Block) : splitKey (~~~key) = notKeyHalves (splitKey key) := by
  simp only [splitKey, notKeyHalves, permPC1_not]
  rw [extractLsb'_not (by decide), extractLsb'_not (by decide)]

theorem rotateHalves_not (h : KeyHalves) {s : Nat} (hs : s < 28) :
    rotateHalves s (notKeyHalves h) = notKeyHalves (rotateHalves s h) := by
  simp [rotateHalves_eq_turnHalves _ hs, turnHalves, notKeyHalves, rotateLeft_not]

theorem pickRoundKey_not (h : KeyHalves) : pickRoundKey (notKeyHalves h) = ~~~pickRoundKey h := by
  rw [pickRoundKey, pickRoundKey, notKeyHalves, ← permPC2_not, BitVec.not_append]

theorem roundKeysFrom_not {rots : List Nat} (hrots : ∀ s ∈ rots, s < 28) (h : KeyHalves) :
    roundKeysFrom rots (notKeyHalves h) = (roundKeysFrom rots h).map (~~~·) := by
  induction rots generalizing h with
  | nil => rfl
  | cons s rest ih =>
    obtain ⟨hs, hrest⟩ := List.forall_mem_cons.mp hrots
    rw [roundKeysFrom, roundKeysFrom, rotateHalves_not h hs, pickRoundKey_not, ih hrest, List.map_cons]

/-- The complemented key has the complemented round keys. -/
theorem keySchedule_not (key : Block) (n : Nat) : keySchedule (~~~key) n = (keySchedule key n).map (~~~·) := by
  rw [keySchedule, splitKey_not, roundKeysFrom_not fun s hs => tableROT_lt s (List.mem_of_mem_take hs), keySchedule]

/-- In the round function the complements of the half and of the key cancel, at `E(R) ^ K` (R149 item 4). -/
theorem roundF_not (r : BitVec 32) (k : RoundKey) : roundF (~~~r) (~~~k) = roundF r k := by
  have hcancel : ∀ x y : RoundKey, ~~~x ^^^ ~~~y = x ^^^ y := fun x y => by
    rw [← BitVec.not_xor_left, ← BitVec.not_xor_right, BitVec.not_not]
  rw [roundF, roundF, permE_not, hcancel]

/-- Both halves of the datapath complemented. -/
def notHalves (h : Halves) : Halves := ⟨~~~h.l, ~~~h.r⟩

theorem splitBlock_not (block : Block) : splitBlock (~~~block) = notHalves (splitBlock block) := by
  simp only [splitBlock, notHalves, permIP_not]
  rw [extractLsb'_not (by decide), extractLsb'_not (by decide)]

theorem joinHalves_not (h : Halves) : joinHalves (notHalves h) = ~~~joinHalves h := by
  rw [joinHalves, joinHalves, notHalves, ← permFP_not, BitVec.not_append]

theorem feistelRound_not (h : Halves) (k : RoundKey) : feistelRound (notHalves h) (~~~k) = notHalves (feistelRound h k) := by
  simp only [feistelRound, notHalves, roundF_not, BitVec.not_xor_left]

theorem foldl_feistelRound_not (keys : List RoundKey) (h : Halves) :
    (keys.map (~~~·)).foldl feistelRound (notHalves h) = notHalves (keys.foldl feistelRound h) := by
  induction keys generalizing h with
  | nil => rfl
  | cons k rest ih => rw [List.map_cons, List.foldl_cons, List.foldl_cons, feistelRound_not, ih]

/-- Settles O29: every stage of the schedule and of the network commutes with the complement. -/
theorem complementation : Obligations.Complementation := by
  intro x key n
  rw [crypt, crypt, keySchedule_not, splitBlock_not, foldl_feistelRound_not, joinHalves_not]

/-! ## ENCRYPT and DECRYPT, their successful forms -/

theorem exec_encrypt_ok {s : State} (hkv : s.kv = true) :
    exec (.encrypt 8) s = .next (complete .ok (setDout (crypt s.pend.din (scheduleKeys s)) s)) := by
  simp [exec, execEncrypt, hkv]

theorem exec_decrypt_ok {s : State} (hkv : s.kv = true) :
    exec (.decrypt 8) s = .next (complete .ok (setDout (crypt s.pend.din (scheduleKeys s).reverse) s)) := by
  simp [exec, execDecrypt, hkv]

/-- The loaded keys in reverse are the first NR slots, last first. -/
theorem scheduleKeys_reverse_eq_slots (s : State) (h : s.nr.toNat ≤ 16) :
    (scheduleKeys s).reverse = (List.range s.nr.toNat).map fun i => rkSlot s (s.nr.toNat - 1 - i) := by
  have hrange : (List.range s.nr.toNat).reverse = (List.range s.nr.toNat).map (s.nr.toNat - 1 - ·) := by
    rw [List.range_eq_range', List.reverse_range', List.range_eq_range', Nat.zero_add]
  rw [scheduleKeys_eq_slots s h, ← List.map_reverse, hrange, List.map_map]
  rfl

/-- Settles O12: the loaded keys are the first NR slots in order. -/
theorem encryptRunsTheKeysForward : Obligations.EncryptRunsTheKeysForward := by
  intro s hkv hnr
  rw [exec_encrypt_ok hkv, scheduleKeys_eq_slots s hnr]
  rfl

/-- Settles O13: in reverse they are the slots from NR - 1 down. -/
theorem decryptRunsTheKeysBackward : Obligations.DecryptRunsTheKeysBackward := by
  intro s hkv hnr
  rw [exec_decrypt_ok hkv, scheduleKeys_reverse_eq_slots s hnr]
  rfl

/-- DECRYPT undoes ENCRYPT in any two states that share a loaded schedule, whatever its keys and their number. -/
theorem decrypt_undoes_encrypt {a b : State} (hakv : a.kv = true) (hbkv : b.kv = true) (hkeys : scheduleKeys b = scheduleKeys a) :
    ∃ c, exec (.encrypt 8) a = .next c ∧
      (b.pend.din = c.dout → ∃ t, exec (.decrypt 8) b = .next t ∧ t.dout = a.pend.din) := by
  refine ⟨_, exec_encrypt_ok hakv, fun hdin => ⟨_, exec_decrypt_ok hbkv, ?_⟩⟩
  rw [complete_dout, setDout_dout] at hdin ⊢
  rw [hdin, hkeys, crypt_crypt_reverse]

/-- Settles O20: KEYSCHED loads a schedule for every valid count, and the network undoes itself under any schedule. -/
theorem decryptUndoesEncrypt : Obligations.DecryptUndoesEncrypt := by
  intro s rnd hrnd
  obtain ⟨n, hrounds⟩ : ∃ n, rounds rnd = some n := Option.ne_none_iff_exists'.mp fun hnone => by
    have := rounds_eq_none.mp hnone
    omega
  refine ⟨_, exec_keysched_ok hrounds s, fun a b hark hanr hakv hbrk hbnr hbkv => ?_⟩
  exact decrypt_undoes_encrypt hakv hbkv (scheduleKeys_congr (hbrk.trans hark.symm) (hbnr.trans hanr.symm))

end Sys2Proof.Machine
end

section
/-! PROOFS. NOP and the accesses of the host at each offset of the register window (42_control.md R170 to R173). -/

namespace Sys2Proof

/-! ## OPC 0 -/

/-- Only NOP has the opcode 0 (R78). -/
theorem Instr.eq_nop_of_row_opc_eq_zero {i : Instr} (h : i.row.opc = 0) : i = .nop := by
  cases i with
  | nop => rfl
  | keysched | encrypt | decrypt | forcekey | rkread => cases h

/-- Of the words with OPC 0 only the word 0 decodes (R170). -/
theorem decode_illegal_of_fieldOpc_eq_zero {w : Word} (hopc : fieldOpc w = 0) (hw : w ≠ 0) : ∃ e, decode w = .error e := by
  rcases hd : decode w with e | i
  · exact ⟨e, rfl⟩
  · obtain ⟨hsel, -⟩ := decode_eq_ok_iff.mp hd
    obtain rfl : i = .nop := Instr.eq_nop_of_row_opc_eq_zero ((fieldOpc_of_selects hsel).symm.trans hopc)
    exact absurd ((decodeSelectsByMaskAndMatch w).1.mp hd) hw

end Sys2Proof

namespace Sys2Proof.Machine

open Sys2Proof.Safety

/-- Settles O8: the other words with OPC 0 are ILLEGAL, and a write of NOP to CMD is a CMD write like any other. -/
theorem nopCompletes : Obligations.NopCompletes := by
  refine ⟨fun w => (decodeSelectsByMaskAndMatch w).1, fun s => rfl, fun s hopc hw => ?_,
    fun s hreset => (cmdWriteIsAcceptedOrDropped s 0 hreset).2, fun s hreset => (cmdWriteIsAcceptedOrDropped s 0 hreset).1⟩
  obtain ⟨e, hd⟩ := decode_illegal_of_fieldOpc_eq_zero (congrArg BitVec.toNat hopc) hw
  exact completeCommand_illegal hd

/-! ## Reads -/

/-- STATUS.ERR is "ERRCODE is not 0" in the numbers of the codes too (R24, R180). -/
theorem errFlag_eq_bits_ne_zero (s : State) : errFlag s = (s.errcode.bits != 0) := by
  unfold errFlag
  cases s.errcode <;> rfl

/-- The write-only and the reserved registers read 0 (R56). -/
theorem readReg_eq_zero {r : Reg} (h : r ∈ [.cmd, .ctrl, .keyHi, .keyLo, .reserved]) (s : State) : readReg r s = 0 := by
  cases r with
  | cmd | ctrl | keyHi | keyLo | reserved => rfl
  | id | status | dinHi | dinLo | doutHi | doutLo | fkeyHi | fkeyLo => simp at h

/-- Their offsets (R20), each a legal one. -/
theorem regAt_writeOnly_or_reserved : ∀ off ∈ [0x04, 0x0C, 0x10, 0x14, 0x30, 0x34, 0x38, 0x3C],
    legalAccess 32 off = true ∧ regAt off ∈ [.cmd, .ctrl, .keyHi, .keyLo, .reserved] := by decide

/-- Settles O31: a legal read answers the register at its offset. -/
theorem busReadByOffset : Obligations.BusReadByOffset := by
  intro s hreset
  have hread {off : Nat} (hlegal : legalAccess 32 off = true) : readResponse 32 off s = .data (readReg (regAt off) s) :=
    readResponse_legal hreset hlegal
  refine ⟨hread rfl, ?status, hread rfl, hread rfl, hread rfl, hread rfl, hread rfl, hread rfl, ?zero, ?illegal, fun _ _ => rfl⟩
  case status => exact (hread rfl).trans (congrArg _ (errFlag_eq_bits_ne_zero s ▸ statusWord_eq_or s))
  case zero =>
    intro off hoff
    obtain ⟨hlegal, hreg⟩ := regAt_writeOnly_or_reserved off hoff
    rw [hread hlegal, readReg_eq_zero hreg]
  case illegal => exact fun width off hbad => readResponse_illegal hreset (legalAccess_eq_false_iff.mpr hbad)

/-! ## Writes -/

/-- A write of a read-only or a reserved register has no effect (R56). -/
theorem writeReg_eq_self {r : Reg} (h : r ∈ [.id, .doutHi, .doutLo, .reserved]) (v : Word) (s : State) : writeReg r v s = s := by
  cases r with
  | id | doutHi | doutLo | reserved => rfl
  | cmd | status | ctrl | keyHi | keyLo | dinHi | dinLo | fkeyHi | fkeyLo => simp at h

/-- Their offsets (R20), each a legal one. -/
theorem regAt_readOnly_or_reserved : ∀ off ∈ [0x00, 0x20, 0x24, 0x30, 0x34, 0x38, 0x3C],
    legalAccess 32 off = true ∧ regAt off ∈ [.id, .doutHi, .doutLo, .reserved] := by decide

/-- Settles O30: a legal write is the register write at its offset, and an illegal one only records its error. -/
theorem busWriteByOffset : Obligations.BusWriteByOffset := by
  intro s v hreset
  have hwrite {off : Nat} (hlegal : legalAccess 32 off = true) : busWrite 32 off v s = writeReg (regAt off) v s :=
    busWrite_legal hreset hlegal v
  refine ⟨hwrite rfl, hwrite rfl, hwrite rfl, hwrite rfl, hwrite rfl, hwrite rfl, hwrite rfl, hwrite rfl, ?ignored, ?illegal⟩
  case ignored =>
    intro off hoff
    obtain ⟨hlegal, hreg⟩ := regAt_readOnly_or_reserved off hoff
    rw [hwrite hlegal, writeReg_eq_self hreg]
  case illegal => exact fun width off hbad => ⟨_, busWrite_illegal hreset (legalAccess_eq_false_iff.mpr hbad) v⟩

/-! ## Soft reset -/

/-- A CTRL write with SRST set is a reset of the engine (R172). -/
theorem busWrite_ctrl_srst {s : State} (hreset : s.resetAsserted = false) {v : Word} (hsrst : v.getLsbD 0 = true) :
    busWrite 32 0x0C v s = resetEngine s :=
  (busWrite_legal hreset rfl v).trans (if_pos hsrst)

/-- An engine in its reset state has no command in flight to complete (R200). -/
theorem completionEnabled_of_engineReset {t : State} (h : EngineReset t) : completionEnabled t = false := by
  rw [completionEnabled, h.busy, Bool.false_and]

/-- Settles O34: the write is a reset of the engine, which leaves the reset input and the host's side alone. -/
theorem softResetClearsEverything : Obligations.SoftResetClearsEverything := by
  intro s v hreset hsrst
  rw [busWrite_ctrl_srst hreset hsrst]
  have hengine : EngineReset (resetEngine s) := engineReset_resetEngine s
  exact ⟨hengine, completionEnabled_of_engineReset hengine, hreset, rfl, rfl, rfl⟩

end Sys2Proof.Machine
end

section
/-! PROOFS. Errors (60_exceptions.md R181 to R191): which words are ILLEGAL, the result code of every completion in the order of the checks,
that a failing completion writes STATUS alone, and the overrun flag. -/

namespace Sys2Proof

/-! ## Which words are ILLEGAL -/

/-- The words that decode are those a row of the opcode map selects (R79). -/
theorem decodes_iff_row_selects {w : Word} : (∃ i, decode w = .ok i) ↔ ∃ r ∈ opcodeTable, r.selects w = true := by
  simp only [decode_eq_ok_iff]
  constructor
  · rintro ⟨i, hsel, -⟩
    exact ⟨i.row, by cases i <;> simp [opcodeTable, Instr.row], hsel⟩
  · rintro ⟨r, hr, hsel⟩
    simp only [opcodeTable, List.mem_cons, List.not_mem_nil, or_false] at hr
    obtain rfl | rfl | rfl | rfl | rfl | rfl := hr
    · exact ⟨.nop, hsel, trivial⟩
    · exact ⟨.keysched _ _, hsel, rfl, rfl⟩
    · exact ⟨.encrypt _, hsel, rfl⟩
    · exact ⟨.decrypt _, hsel, rfl⟩
    · exact ⟨.forcekey _, hsel, rfl⟩
    · exact ⟨.rkread _, hsel, rfl⟩

/-- A word is ILLEGAL when no row selects it (R80). -/
theorem illegal_iff_no_row_selects {w : Word} : (∃ e, decode w = .error e) ↔ ∀ r ∈ opcodeTable, ¬ r.selects w = true := by
  have hrows : (∀ r ∈ opcodeTable, ¬ r.selects w = true) ↔ ¬ ∃ i, decode w = .ok i := by simp [decodes_iff_row_selects]
  rw [hrows]
  cases decode w <;> simp

theorem Instr.row_opc_lt_six (i : Instr) : i.row.opc < 6 := by
  cases i <;> simp [row, rowNop, rowKeysched, rowEncrypt, rowDecrypt, rowForcekey, rowRkread]

/-- No row has an opcode from 6 on (R80). -/
theorem illegal_of_reserved_opc {w : Word} (hopc : 6 ≤ fieldOpc w) : ∃ e, decode w = .error e := by
  rcases hd : decode w with e | i
  · exact ⟨e, rfl⟩
  · obtain ⟨hsel, -⟩ := decode_eq_ok_iff.mp hd
    exact absurd (fieldOpc_of_selects hsel ▸ hopc) (Nat.not_le.mpr i.row_opc_lt_six)

/-- OPC is reserved or one of the six rows' (R78). -/
theorem opc_reserved_or_command : ∀ opc : BitVec 4, 6 ≤ opc.toNat ∨ opc ∈ [0, 1, 2, 3, 4, 5] := by decide

/-- R181 field by field: for a command's opcode the rows demand zero in the reserved bits and in the fields R77 leaves unused; no row has
another opcode. -/
theorem illegal_fields_iff (res2 : BitVec 12) (idx : BitVec 4) (res1 : BitVec 3) (rnd : BitVec 5) (len opc : BitVec 4) :
    (∃ e, decode (fields res2 idx res1 rnd len opc) = .error e) ↔
      6 ≤ opc.toNat ∨ res1 ≠ 0 ∨ res2 ≠ 0 ∨ (len ≠ 0 ∧ opc.toNat ∈ [0, 4, 5]) ∨ (rnd ≠ 0 ∧ opc.toNat ∈ [0, 2, 3, 5]) ∨
      (idx ≠ 0 ∧ opc.toNat ∈ [0, 1, 2, 3, 4]) := by
  obtain hopc | hopc := opc_reserved_or_command opc
  · have hreserved : 6 ≤ fieldOpc (fields res2 idx res1 rnd len opc) := by rwa [fieldOpc_fields]
    exact iff_of_true (illegal_of_reserved_opc hreserved) (.inl hopc)
  · rw [illegal_iff_no_row_selects]
    simp only [opcodeTable, List.forall_mem_cons, selects_fields]
    simp only [List.mem_cons, List.not_mem_nil, or_false] at hopc
    -- With OPC known only its own row is left on one side and its unused fields on the other.
    obtain rfl | rfl | rfl | rfl | rfl | rfl := hopc <;> simp <;> tauto

end Sys2Proof

namespace Sys2Proof.Machine

open Sys2Proof.Safety

/-- Settles O5: the six parts of a word are its fields, and an ILLEGAL word fails. -/
theorem illegalWordsCompleteWithIllegalCmd : Obligations.IllegalWordsCompleteWithIllegalCmd := by
  refine ⟨fun w => ?_, fun s e hd => completeCommand_illegal hd⟩
  conv_lhs => rw [word_eq_fields w]
  exact illegal_fields_iff _ _ _ _ _ _

/-! ## The result code of a completion -/

/-- The code a command completes with: its checks in the order of R190, the first that fails deciding. -/
def resultCode (s : State) : Instr → ResultCode
  | .nop => .ok
  | .keysched len rnd => if len ≠ 8 then .invalidKey else if 17 ≤ rnd then .invalidRounds else .ok
  | .encrypt len => if len ≠ 8 then .invalidBlock else if s.kv = false then .noKey else .ok
  | .decrypt len => if len ≠ 8 then .invalidBlock else if s.kv = false then .noKey else .ok
  | .forcekey rnd => if 17 ≤ rnd then .invalidRounds else .ok
  | .rkread idx => if s.kv = false then .noKey else if s.nr.toNat ≤ idx then .rkRange else .ok

/-- RND stands for no round count from 17 on, and for one below (R74). -/
theorem rounds_cases (rnd : Nat) : (17 ≤ rnd ∧ rounds rnd = none) ∨ (¬17 ≤ rnd ∧ ∃ n, rounds rnd = some n) := by
  rcases hr : rounds rnd with _ | n
  · exact .inl ⟨rounds_eq_none.mp hr, rfl⟩
  · exact .inr ⟨fun h => by simp [rounds_eq_none.mpr h] at hr, n, rfl⟩

/-- Every command completes with its result code. -/
theorem exec_completes_with_resultCode (i : Instr) (s : State) : ∃ u, exec i s = .next (complete (resultCode s i) u) := by
  cases i with
  | nop => exact ⟨s, rfl⟩
  | keysched len rnd =>
    simp only [exec, execKeysched, resultCode]
    obtain ⟨hrnd, hr⟩ | ⟨hrnd, n, hr⟩ := rounds_cases rnd
    · rw [hr, if_pos hrnd]
      split_ifs <;> exact ⟨_, rfl⟩
    · rw [hr, if_neg hrnd]
      split_ifs <;> exact ⟨_, rfl⟩
  | forcekey rnd =>
    simp only [exec, execForcekey, resultCode]
    obtain ⟨hrnd, hr⟩ | ⟨hrnd, n, hr⟩ := rounds_cases rnd
    · rw [hr, if_pos hrnd]
      exact ⟨_, rfl⟩
    · rw [hr, if_neg hrnd]
      exact ⟨_, rfl⟩
  | encrypt len | decrypt len | rkread idx =>
    simp only [exec, execEncrypt, execDecrypt, execRkread, resultCode]
    split_ifs <;> exact ⟨_, rfl⟩

/-- Settles O14: an ILLEGAL word fails with ILLEGAL_CMD, and a command ends with its result code. -/
theorem errorPriority : Obligations.ErrorPriority := by
  refine ⟨by decide, by decide, fun s => ?_⟩
  rcases hd : decode s.pend.cmd with e | i
  · exact ⟨_, completeCommand_illegal hd, rfl, rfl, rfl⟩
  · obtain ⟨u, hu⟩ := exec_completes_with_resultCode i s
    refine ⟨_, (completeCommand_ok hd).trans hu, rfl, rfl, ?_⟩
    cases i <;> rfl

/-! ## Failing completions -/

/-- What a completion writes: STATUS, and besides it a schedule or DOUT, but that only with OK. -/
theorem completeCommand_cases {s t : State} (h : completeCommand s = .next t) :
    ∃ code u, t = complete code u ∧
      (u = s ∨ (code = .ok ∧ ((∃ keys forced, u = loadSchedule keys forced s) ∨ ∃ v, u = setDout v s))) := by
  rcases hd : decode s.pend.cmd with e | i
  · exact ⟨_, s, next_inj.mp (h.symm.trans (completeCommand_illegal hd)), .inl rfl⟩
  · obtain ⟨code, u, hx, hu⟩ := exec_cases i s
    refine ⟨code, u, next_inj.mp (h.symm.trans ((completeCommand_ok hd).trans hx)), ?_⟩
    obtain hu | ⟨hok, -, n, -, -, hu⟩ | ⟨hok, -, n, -, -, hu⟩ | ⟨hok, -, v, hu⟩ := hu
    · exact .inl hu
    · exact .inr ⟨hok, .inl ⟨_, _, hu⟩⟩
    · exact .inr ⟨hok, .inl ⟨_, _, hu⟩⟩
    · exact .inr ⟨hok, .inr ⟨v, hu⟩⟩

/-- STATUS bit 2 is ERR (R24). -/
theorem statusWord_getLsbD_err (s : State) : (statusWord s).getLsbD 2 = errFlag s := by
  simp [statusWord_eq_or]

/-- Settles O15: what a completion writes besides STATUS it writes with OK. -/
theorem failingCommandWritesStatusAlone : Obligations.FailingCommandWritesStatusAlone := by
  intro s t h herr
  obtain ⟨code, u, rfl, rfl | ⟨rfl, -⟩⟩ := completeCommand_cases h
  · exact ⟨rfl, (statusWord_getLsbD_err _).trans (bne_iff_ne.mpr herr)⟩
  · exact absurd rfl herr

/-! ## Overrun -/

/-- No command touches OVR or the operand registers. -/
theorem completeCommand_frame {s t : State} (h : completeCommand s = .next t) :
    t.ovr = s.ovr ∧ t.key = s.key ∧ t.din = s.din ∧ t.fkey = s.fkey := by
  obtain ⟨code, u, rfl, rfl | ⟨-, ⟨keys, forced, rfl⟩ | ⟨v, rfl⟩⟩⟩ := completeCommand_cases h <;> simp

/-- What a step does to OVR: it sets it on an overrun, clears it on a write of STATUS bit 3 or a reset, and otherwise keeps it. -/
theorem step_ovr_cases {s t : State} (h : step s = .next t) :
    t.ovr = s.ovr ∨
    (t.ovr = true ∧ hostDoesNext isCmdWrite s = true ∧ s.busy = true ∧ t.busy = true ∧ t.pend = s.pend ∧ t.errcode = s.errcode) ∨
    (t.ovr = false ∧ (hostDoesNext isOvrClear s = true ∨ resetNext s = true)) := by
  obtain ⟨-, hc⟩ | ⟨hr, ht, -⟩ | ⟨-, -, v, ops, rfl⟩ | ⟨hcmd, hbusy, ops, rfl⟩ | ⟨hclear, ops, rfl⟩ | ⟨_, _, _, _, _, rfl⟩ :=
    step_effects h
  · exact .inl (completeCommand_frame hc).1
  · exact .inr (.inr ⟨ht.ovr, .inr hr⟩)
  · exact .inl rfl
  · exact .inr (.inl ⟨rfl, hcmd, hbusy, hbusy, rfl, rfl⟩)
  · exact .inr (.inr ⟨rfl, .inl hclear⟩)
  · exact .inl rfl

/-- A CMD write while BUSY = 1 sets OVR and drops the word (R83). -/
theorem step_cmdWrite_busy {s t : State} (h : step s = .next t) (hcmd : hostDoesNext isCmdWrite s = true) (hbusy : s.busy = true) :
    ∃ ops, t = { s with schedule := s.schedule.tail, host := ops, ovr := true } := by
  obtain ⟨v, ops, -, -, hstep⟩ := step_of_hostDoesNext hcmd
  rw [hstep] at h
  exact ⟨ops, (next_inj.mp h).symm.trans (offerCommand_busy (by exact hbusy))⟩

/-- A STATUS write with bit 3 set clears OVR (R24). -/
theorem step_ovrClear {s t : State} (h : step s = .next t) (hclear : hostDoesNext isOvrClear s = true) : t.ovr = false := by
  obtain ⟨v, ops, hv, -, hstep⟩ := step_of_hostDoesNext hclear
  rw [hstep] at h
  rw [← next_inj.mp h]
  exact congrArg State.ovr (if_pos hv)

/-- A step that is a reset leaves the engine in its reset state (R200). -/
theorem step_reset {s t : State} (h : step s = .next t) (hreset : resetNext s = true) : EngineReset t := by
  obtain hinput | hsoft := Bool.or_eq_true_iff.mp hreset
  · simp only [resetInputNext, Bool.or_eq_true, beq_iff_eq, List.head?_eq_some_iff] at hinput
    obtain ⟨rest, hs⟩ | ⟨rest, hs⟩ := hinput
    · rw [step_assertReset hs] at h
      exact next_inj.mp h ▸ engineReset_assertReset _
    · rw [step_releaseReset hs] at h
      exact next_inj.mp h ▸ engineReset_releaseReset _
  · obtain ⟨v, ops, hv, -, hstep⟩ := step_of_hostDoesNext hsoft
    rw [hstep] at h
    rw [← next_inj.mp h, show regAt 0x0C = .ctrl from rfl, writeReg, writeCtrl, if_pos hv]
    exact engineReset_resetEngine _

/-- Settles O47: OVR changes only on the events that set or clear it, and each of these does. -/
theorem overrunIsSticky : Obligations.OverrunIsSticky := by
  intro s t h
  refine ⟨fun hs ht => ?set, fun hs ht => ?cleared, fun hcmd hbusy => ?sets, fun hevent => ?clears⟩
  case set =>
    obtain hkeep | ⟨-, hcmd, hbusy, hframe⟩ | ⟨hclear, -⟩ := step_ovr_cases h
    · simp [hs, ht] at hkeep
    · exact ⟨hbusy, hcmd, hframe⟩
    · simp [ht] at hclear
  case cleared =>
    obtain hkeep | ⟨hset, -⟩ | ⟨-, hevent⟩ := step_ovr_cases h
    · simp [hs, ht] at hkeep
    · simp [ht] at hset
    · exact hevent
  case sets =>
    obtain ⟨ops, rfl⟩ := step_cmdWrite_busy h hcmd hbusy
    exact ⟨rfl, hbusy, rfl, rfl, rfl⟩
  case clears =>
    obtain hclear | hreset := hevent
    · exact step_ovrClear h hclear
    · exact (step_reset h hreset).ovr

/-- Settles O54: the host's write finds BUSY as the engine has left it. -/
theorem secondCmdWriteHasTwoOutcomes : Obligations.SecondCmdWriteHasTwoOutcomes := by
  intro s w ops rest hbusy hreset hhost
  refine ⟨fun hs => ?dropped, fun hs => ?accepted⟩
  case dropped =>
    exact (step_wr hreset hs (by decide) rfl hhost).trans (congrArg _ (offerCommand_busy (by exact hbusy)))
  case accepted =>
    have hc : engineCompletes s = true := by simp [engineCompletes, hs, completionEnabled_iff, hbusy, hreset]
    obtain ⟨u, hu, hidle, -, huhost, huturns, -, hureset, -⟩ := completeCommand_next (afterTurn s)
    obtain ⟨hovr, hkey, hdin, hfkey⟩ := completeCommand_frame hu
    have hwrite := step_wr (hureset.trans hreset) (huturns.trans (congrArg List.tail hs)) (by decide) rfl (huhost.trans hhost)
    refine ⟨acceptCommand w { u with host := ops, schedule := rest }, ?_, rfl, rfl, ?_, hovr, rfl, rfl⟩
    · refine (run_two ((step_of_engineCompletes hc).trans hu) hwrite).trans (congrArg _ ?_)
      exact offerCommand_idle (by exact hidle)
    · simp [snapshot, hkey, hdin, hfkey]

end Sys2Proof.Machine
end

section
/-! PROOFS. Reset and hazards (70_reset_and_hazards.md): who changes the schedule (R204), the reset state (R200) and the reset input (R201),
and that the WAIT loop ends under every interleaving (R217). -/

namespace Sys2Proof.Machine

open Sys2Proof.Safety

/-! ## The loaded schedule -/

/-- Settles O44: of what a completion can do, only the OK end of a KEYSCHED or a FORCEKEY loads a schedule. -/
theorem onlyKeyschedForcekeyAndResetChangeTheSchedule : Obligations.OnlyKeyschedForcekeyAndResetChangeTheSchedule := by
  intro s t h
  obtain ⟨hc, he⟩ | ⟨hr, -⟩ | ⟨-, hschedule⟩ := step_keeps_dout_and_schedule h
  · obtain ⟨code, u, rfl, hu⟩ := completion_effects he
    obtain rfl | ⟨hok, hi, -⟩ | ⟨hok, hi, -⟩ | ⟨-, -, v, rfl⟩ := hu
    · exact .inl ⟨rfl, rfl, rfl, rfl⟩
    · exact .inr (.inl ⟨hc, hok, .inl hi⟩)
    · exact .inr (.inl ⟨hc, hok, .inr hi⟩)
    · exact .inl ⟨rfl, rfl, rfl, rfl⟩
  · exact .inr (.inr hr)
  · exact .inl hschedule

/-! ## Reset -/

/-- An engine in its reset state has STATUS 0: each of its bits is a field that reset clears. -/
theorem statusWord_of_engineReset {t : State} (h : EngineReset t) : statusWord t = 0 := by
  simp [statusWord_eq_or, errFlag, h.errcode, h.nr, h.degen, h.kv, h.ovr, h.done, h.busy, ResultCode.bits]

/-- Settles O38: power-on, a write of SRST and the release of the reset input each leave the reset state, where nothing is enabled. -/
theorem resetState : Obligations.ResetState := by
  refine ⟨fun t h => ⟨statusWord_of_engineReset h, rfl, completionEnabled_of_engineReset h⟩, engineReset_reset,
    fun s hreset => ?soft, fun s rest hs => ⟨_, step_releaseReset hs, engineReset_releaseReset _⟩⟩
  case soft => exact busWrite_ctrl_srst hreset (v := 0x00000001#32) (by decide) ▸ engineReset_resetEngine s

theorem busWrite_underReset {s : State} (hreset : s.resetAsserted = true) (width off : Nat) (v : Word) :
    busWrite width off v s = s := by
  simp [busWrite, hreset]

/-- A command in flight never completes while reset is asserted (R201). -/
theorem engineCompletes_underReset {s : State} (hreset : s.resetAsserted = true) : engineCompletes s = false := by
  by_contra hc
  have hreleased := (engineCompletes_enabled (by simpa using hc)).2
  simp [hreset] at hreleased

/-- Settles O49: both changes of the reset input reset the engine, and an asserted one shuts out the bus and the completion. -/
theorem resetInput : Obligations.ResetInput := by
  refine fun s => ⟨fun rest hs => ?asserted, fun rest hs => ?released, fun hreset => ?under⟩
  case asserted => exact ⟨_, step_assertReset hs, engineReset_assertReset _, rfl, rfl, rfl, rfl⟩
  case released => exact ⟨_, step_releaseReset hs, engineReset_releaseReset _, rfl, rfl, rfl, rfl⟩
  case under => exact ⟨busWrite_underReset hreset, readResponse_underReset hreset, engineCompletes_underReset hreset⟩

/-! ## The WAIT loop -/

/-- STATUS bit 0 is BUSY (R24). -/
theorem statusWord_getLsbD_busy (s : State) : (statusWord s).getLsbD 0 = s.busy := by
  simp [statusWord_eq_or]

/-- WAIT sees BUSY just when a completion is enabled: under reset, when none is, reads answer 0 (R201). -/
theorem statusSaysBusy_eq_completionEnabled (s : State) : statusSaysBusy (readResponse 32 0x08 s) = completionEnabled s := by
  cases hreset : s.resetAsserted with
  | true => simp [readResponse_underReset hreset, statusSaysBusy, completionEnabled, hreset]
  | false =>
    rw [readResponse_legal hreset (by decide), completionEnabled, hreset, Bool.not_false, Bool.and_true]
    exact statusWord_getLsbD_busy s

/-- WAIT reads STATUS and stays next as long as there is a completion to wait for (R82). -/
theorem hostOp_wait (s : State) : ∃ answer, hostOp .wait s =
    .next (observe answer { s with host := if completionEnabled s then .wait :: s.host else s.host }) := by
  refine ⟨readResponse 32 0x08 s, ?_⟩
  rw [← statusSaysBusy_eq_completionEnabled, hostOp, hostWait]
  split <;> rfl

section
variable {s : State} {ops : List HostOp} (hhost : s.host = .wait :: ops)
include hhost

/-- Whoever the schedule names, the step is taken and the host has left WAIT or still has it next. -/
theorem step_wait_scheduled {turn : Turn} {turns : List Turn} (hs : s.schedule = turn :: turns) :
    ∃ t, step s = .next t ∧ t.schedule = turns ∧ (t.host = ops ∨ t.host = .wait :: ops) := by
  cases turn with
  | host =>
    obtain ⟨answer, hwait⟩ := hostOp_wait { s with host := ops, schedule := turns }
    refine ⟨_, (step_hostOp hs hhost).trans hwait, rfl, ?_⟩
    rw [observe_host]
    split
    · exact .inr rfl
    · exact .inl rfl
  | engine =>
    cases hc : completionEnabled s with
    | true =>
      obtain ⟨t, ht, -, -, hthost, hturns, -⟩ := completeCommand_next (afterTurn s)
      have hstep : step s = .next t := (step_of_engineCompletes (by simpa [engineCompletes, hs] using hc)).trans ht
      exact ⟨t, hstep, hturns.trans (congrArg List.tail hs), .inr (hthost.trans hhost)⟩
    | false => exact ⟨_, step_engine_idle hs hc, rfl, .inr hhost⟩
  | assertReset => exact ⟨_, step_assertReset hs, rfl, .inr hhost⟩
  | releaseReset => exact ⟨_, step_releaseReset hs, rfl, .inr hhost⟩

/-- With the schedule used up and no completion enabled the host's next read of STATUS leaves WAIT. -/
theorem step_wait_leaves (hs : s.schedule = []) (hc : completionEnabled s = false) : ∃ t, step s = .next t ∧ t.host = ops := by
  have hop : hostOpNext s = some .wait := by simp [hostOpNext, hs, hc, hhost]
  obtain ⟨rest, hrest, hstep⟩ := step_of_hostOpNext hop
  obtain rfl : ops = rest := List.tail_eq_of_cons_eq (hhost.symm.trans hrest)
  obtain ⟨answer, hwait⟩ := hostOp_wait { s with schedule := s.schedule.tail, host := ops }
  exact ⟨_, hstep.trans hwait, if_neg (by simpa [completionEnabled] using hc)⟩

/-- With the schedule used up a command in flight completes first; then, or at once where there is none, the host leaves WAIT. -/
theorem run_wait_unscheduled (hs : s.schedule = []) : ∃ n t, n ≤ 2 ∧ run n s = .next t ∧ t.host = ops := by
  cases hc : completionEnabled s with
  | true =>
    obtain ⟨u, hu, hidle, -, huhost, huturns, -⟩ := completeCommand_next s
    have hc' : completionEnabled u = false := by simp [completionEnabled, hidle]
    obtain ⟨t, ht, hthost⟩ := step_wait_leaves (huhost.trans hhost) (huturns.trans hs) hc'
    exact ⟨2, t, by omega, run_two ((step_fair_engine hs hc).trans hu) ht, hthost⟩
  | false =>
    obtain ⟨t, ht, hthost⟩ := step_wait_leaves hhost hs hc
    exact ⟨1, t, by omega, run_succ ht, hthost⟩

/-- Each turn of the schedule is one step, and the host leaves WAIT at one of them or in the two steps after the last. -/
theorem run_wait {turns : List Turn} (hs : s.schedule = turns) : ∃ n t, n ≤ turns.length + 2 ∧ run n s = .next t ∧ t.host = ops := by
  induction turns generalizing s with
  | nil => simpa using run_wait_unscheduled hhost hs
  | cons turn turns ih =>
    obtain ⟨u, hstep, huturns, hleft | hwaits⟩ := step_wait_scheduled hhost hs
    · exact ⟨1, u, by omega, run_succ hstep, hleft⟩
    · obtain ⟨n, t, hn, hrun, hthost⟩ := ih hwaits huturns
      exact ⟨n + 1, t, by simpa using hn, (run_succ hstep).trans hrun, hthost⟩

end

/-- Settles O52: the run of the host's WAIT under the schedule of the state. -/
theorem waitLoopEnds : Obligations.WaitLoopEnds := fun _ _ hhost => run_wait hhost rfl

end Sys2Proof.Machine
end
